-- ==== Sys2Proof/Word.lean ====
section
/-!
DEFINITION. The words of the core: every value is an unsigned bit vector of a stated width (R13, R115).
-/
namespace Sys2Proof

/-- A register word and the data of one host access, 32 bits (R53). -/
abbrev Word := BitVec 32

/-- A Block, a round key or the cipher state, 16 bits (R8, R18). -/
abbrev Block := BitVec 16

/-- One S-box lane, 4 bits (R8). -/
abbrev Nibble := BitVec 4

/-- One byte of an encoded instruction. -/
abbrev Byte := BitVec 8

end Sys2Proof
end

