-- ==== Sys2Proof/Config.lean ====
section
/-!
DEFINITION. What an implementation fixes: the cipher's two tables and the window's base address, which the spec leaves open as
named parameters (R9, R10, R52; U1, U2, U4), and the constants the spec fixes (R8, R12, R29).
-/
namespace Sys2Proof

/-- The configuration of R40: the substitution table and the permutation table. `Equiv.Perm` is a table WITH its proof of
bijectivity, as R9 and R10 ask, and `sbox.symm` is the unique inverse table SBOX_INV of R11. -/
structure CipherTables where
  /-- SBOX (R9), indexed by the nibble's unsigned value. -/
  sbox : Equiv.Perm (Fin 16)
  /-- PBOX (R10), indexed and valued in MSB positions (R15). -/
  pbox : Equiv.Perm (Fin 16)

/-- The S-box of the build: some bijection, no more is known of it (R9, U1). DESIGN CHOICE (log 1), safe. -/
opaque Config.sbox : Equiv.Perm (Fin 16)

/-- The P-layer's table of the build: some bijection, no more is known of it (R10, U2). DESIGN CHOICE (log 2), safe. -/
opaque Config.pbox : Equiv.Perm (Fin 16)

/-- CORE_BASE, where the platform puts the window (R52, U4). DESIGN CHOICE (log 3), safe. -/
opaque Config.coreBase : Nat

/-- The tables the machine runs with. -/
def Config.tables : CipherTables := ⟨Config.sbox, Config.pbox⟩

/-- The table of R103, and its inverse as R105 lists it. -/
def Config.textbookSbox : Equiv.Perm (Fin 16) where
  toFun := ![0xE, 0x4, 0xD, 0x1, 0x2, 0xF, 0xB, 0x8, 0x3, 0xA, 0x6, 0xC, 0x5, 0x9, 0x0, 0x7]
  invFun := ![0xE, 0x3, 0x4, 0x8, 0x1, 0xC, 0xA, 0xF, 0x7, 0xD, 0x9, 0x6, 0xB, 0x2, 0x0, 0x5]
  left_inv := by decide
  right_inv := by decide

/-- The table of R107. -/
def Config.textbookPbox : Equiv.Perm (Fin 16) where
  toFun := ![0, 4, 8, 12, 1, 5, 9, 13, 2, 6, 10, 14, 3, 7, 11, 15]
  invFun := ![0, 4, 8, 12, 1, 5, 9, 13, 2, 6, 10, 14, 3, 7, 11, 15]
  left_inv := by decide
  right_inv := by decide

/-- The default tables of R103 and R107, from general knowledge and not from the source (I1, I2). PRESUMED (log 4): the spec's
test vectors use them, the machine's step does not. -/
def Config.defaultTables : CipherTables := ⟨Config.textbookSbox, Config.textbookPbox⟩

/-- ROUNDS (R8). -/
def Config.rounds : Nat := 4

/-- LAT_ENC, the core steps of ENC (R12, R122). -/
def Config.latEnc : Nat := 4

/-- LAT_1, the core steps of every other command (R12, R122). -/
def Config.latOther : Nat := 1

/-- The constant ID word: interface revision 1, key width 32, block width 16, ROUNDS 4 (R29). -/
def Config.idWord : Word := 0x01201004#32

end Sys2Proof
end

