-- ==== Sys2Proof/Machine/State.lean ====
section
/-!
DEFINITION. The machine's state: the record of R40, plus the two fields of the port that are the model's own (log 6, log 7); the
reasons a step can stop; and the state after reset (R37, R170).
-/
namespace Sys2Proof.Machine

/-- The input signals of the host port in one clock cycle (R51). -/
structure PortCycle where
  /-- Synchronous reset, active high (R170). -/
  rst : Bool
  /-- An access is presented in this cycle. -/
  sel : Bool
  /-- true = write, false = read; valid when `sel`. -/
  we : Bool
  /-- Word index 0..7. -/
  addr : BitVec 3
  /-- Write data; valid when `sel` and `we`. -/
  wdata : Word
deriving DecidableEq, Repr

/-- Why the machine stops. The core takes no trap (R150): these are core steps from latches that no run from reset reaches, which
U7 requires to be stuck and never to compute a result. -/
inductive Fault where
  /-- Raised by a core step with BUSY = 1 and OPC in 0x8..0xF (U7, R35). Safe: unreachable. -/
  | stuckOpcode
  /-- Raised by a core step with BUSY = 1 and RCNT in 5..7 (U7, R34, R35), or OPC = ENC and RCNT = 0, which R35 rules out and U7 does
not list (DESIGN CHOICE, log 11). Safe: unreachable. -/
  | stuckRoundCounter
  /-- Raised by a core step with BUSY = 1 and RSEL out of range for OPC (U7, R35). Safe: unreachable. -/
  | stuckRoundSelect
deriving DecidableEq, Repr

/-- Why the model refuses. No access of the port is refused (R54, R55, R75). -/
inductive Refusal where
  /-- Raised by an arm of exec whose instruction has no meaning yet; no arm does. Safe. -/
  | notModelled (mnemonic : String)
deriving DecidableEq, Repr

/-- Everything the machine holds. -/
structure State where
  /-- CTRL.IE, interrupt enable (R23). -/
  ie : Bool
  /-- STATUS.BUSY (R24). -/
  busy : Bool
  /-- STATUS.DONE (R24). -/
  done : Bool
  /-- STATUS.ERR_CMD (R24, R151). -/
  errCmd : Bool
  /-- STATUS.ERR_BUSY (R24, R152). -/
  errBusy : Bool
  /-- RCNT, the round counter, STATUS[6:4] (R34). -/
  rcnt : BitVec 3
  /-- KEY, the MasterKey (R27). -/
  key : Word
  /-- DIN[15:0], the input Block (R28). -/
  din : Block
  /-- DOUT[15:0], the result Block (R30). -/
  dout : Block
  /-- ST, the cipher state between the rounds of ENC (R32). -/
  st : Block
  /-- OPC, the OP field of the command accepted last (R33). -/
  opc : BitVec 4
  /-- RSEL, the RND field of the command accepted last (R33). -/
  rsel : BitVec 3
  /-- The model's own: the `rdata` line in the cycle just ended, none where R51 does not call it valid (log 7). -/
  rdata : Option Word
  /-- The model's own: what the host drives on the port at the coming clock edges, the next one first (log 6). -/
  inputs : List PortCycle
deriving DecidableEq, Repr

/-- Every piece of state at the value of R37 and R170; `rdata` is 0x00000000 while `rst` = 1 (R170, log 14), and the host has
nothing to present yet (log 6). -/
def State.reset : State where
  ie := false
  busy := false
  done := false
  errCmd := false
  errBusy := false
  rcnt := 0#3
  key := 0x00000000#32
  din := 0x0000#16
  dout := 0x0000#16
  st := 0x0000#16
  opc := 0x0#4
  rsel := 0#3
  rdata := some 0x00000000#32
  inputs := []

end Sys2Proof.Machine
end

