-- ==== Sys2Proof/Syntax.lean ====
section
/-!
DEFINITION. The instructions: the eight commands and the two host accesses, one constructor for each row of
spec/opcode_table.json (R73, R80), the opcode names, and the round index of the cipher.
-/
namespace Sys2Proof

/-- The opcodes of R73 that are assigned. -/
inductive Opcode where
  | nop | enc | rkey | kxor | sub | isub | perm | iperm
deriving DecidableEq, Repr

/-- The round index of `RoundKey(K, r)`: r in 1..5, the function's whole domain (R72, R100, U8). -/
inductive RoundIndex where
  | one | two | three | four | five
deriving DecidableEq, Repr

/-- What a host can present in one cycle (R70). `rkey` and `kxor` hold the RND field as it is encoded; `busread` and `buswrite`
hold the word index and, for a write, the data. -/
inductive Instr where
  /-- NOP (R124). -/
  | nop
  /-- ENC (R140). -/
  | enc
  /-- RKEY r (R125). -/
  | rkey (r : BitVec 3)
  /-- KXOR r (R126). -/
  | kxor (r : BitVec 3)
  /-- SUB (R127). -/
  | sub
  /-- ISUB (R128). -/
  | isub
  /-- PERM (R129). -/
  | perm
  /-- IPERM (R130). -/
  | iperm
  /-- BUSREAD of a word index (R54). -/
  | busread (idx : BitVec 3)
  /-- BUSWRITE of data to a word index (R55). -/
  | buswrite (idx : BitVec 3) (data : Word)
deriving DecidableEq, Repr

end Sys2Proof
end

