-- ==== Sys2Proof/Machine/Operands.lean ====
section
/-!
DEFINITION. How operands are named: MSB positions (R15), nibbles (R16), the numbers of round indices (R72), the registers of the
window by word index (R22), and word indices by byte address for a byte-addressed bridge (R52).
-/
namespace Sys2Proof.Machine

/-- `m(v, p)`: the bit at MSB position `p`, position 0 being bit 15 (R15). -/
def msbBit (v : Block) (p : Fin 16) : Bool := v.getMsb p

/-- The word whose bit at MSB position `p` is `f p` (R15). -/
def ofMsbBits (f : Fin 16 → Bool) : Block := BitVec.ofFnBE f

/-- Nibble 1, bits 15:12 (R16). -/
def nibble1 (w : Block) : Nibble := w.extractLsb' 12 4

/-- Nibble 2, bits 11:8 (R16). -/
def nibble2 (w : Block) : Nibble := w.extractLsb' 8 4

/-- Nibble 3, bits 7:4 (R16). -/
def nibble3 (w : Block) : Nibble := w.extractLsb' 4 4

/-- Nibble 4, bits 3:0 (R16). -/
def nibble4 (w : Block) : Nibble := w.extractLsb' 0 4

/-- The word of four nibbles, nibble 1 most significant (R16, R104). -/
def ofNibbles (n1 n2 n3 n4 : Nibble) : Block := n1 ++ n2 ++ n3 ++ n4

/-- The number r of a round index (R100). -/
def roundNumber : RoundIndex → Nat
  | .one => 1
  | .two => 2
  | .three => 3
  | .four => 4
  | .five => 5

/-- The registers of the window (R22). -/
inductive Reg where
  | ctrl | status | cmd | key | din | dout | id | reserved
deriving DecidableEq, Repr

/-- The register at a word index (R22). -/
def regAt (idx : BitVec 3) : Reg :=
  match idx.toNat with
  | 0 => .ctrl
  | 1 => .status
  | 2 => .cmd
  | 3 => .key
  | 4 => .din
  | 5 => .dout
  | 6 => .id
  | _ => .reserved

/-- The word index of a register (R22). -/
def regIndex : Reg → BitVec 3
  | .ctrl => 0#3
  | .status => 1#3
  | .cmd => 2#3
  | .key => 3#3
  | .din => 4#3
  | .dout => 5#3
  | .id => 6#3
  | .reserved => 7#3

/-- The word index a byte-addressed bridge at base `base` presents for byte address `a`: none, a refusal, for an address below
the base, an offset that is no multiple of 4, and an offset above 0x1C (R52, D5). -/
def wordIndexOfByteAddress (base a : Nat) : Option (BitVec 3) :=
  if base ≤ a then
    let offset := a - base
    if offset % 4 = 0 ∧ offset ≤ 0x1C then some (BitVec.ofNat 3 (offset / 4)) else none
  else none

/-- The same at the platform's CORE_BASE (R52). -/
def bridgeIndex (a : Nat) : Option (BitVec 3) := wordIndexOfByteAddress Config.coreBase a

end Sys2Proof.Machine
end

