-- ==== Sys2Proof/Machine/Datapath.lean ====
section
/-!
DEFINITION. The pure functions of the datapath (40_datapath.md), for ANY pair of tables (R9, R10): none has a flag or an error (R116).
-/
namespace Sys2Proof.Machine

/-- `RoundKey(K, r)`: shift K left by 4(r-1) within 32 bits, bits past the top discarded and low bits zero, then take the upper
16 bits (R100). -/
def roundKey (k : Word) (r : RoundIndex) : Block := (k <<< (4 * (roundNumber r - 1))).extractLsb' 16 16

/-- `KeyMix(s, K, r)`: XOR with the round key (R102). -/
def keyMix (s : Block) (k : Word) (r : RoundIndex) : Block := s ^^^ roundKey k r

/-- `SBOX` on a nibble: its unsigned value, bit 3 most significant, indexes the table (R103, R114). -/
def sboxNibble (T : CipherTables) (a : Nibble) : Nibble := BitVec.ofFin (T.sbox a.toFin)

/-- `SBOX_INV` on a nibble (R11, R105). -/
def invSboxNibble (T : CipherTables) (a : Nibble) : Nibble := BitVec.ofFin (T.sbox.symm a.toFin)

/-- `Substitute(w)` (R104). -/
def substitute (T : CipherTables) (w : Block) : Block :=
  ofNibbles (sboxNibble T (nibble1 w)) (sboxNibble T (nibble2 w)) (sboxNibble T (nibble3 w)) (sboxNibble T (nibble4 w))

/-- `InvSubstitute(w)` (R106). -/
def invSubstitute (T : CipherTables) (w : Block) : Block :=
  ofNibbles (invSboxNibble T (nibble1 w)) (invSboxNibble T (nibble2 w)) (invSboxNibble T (nibble3 w))
    (invSboxNibble T (nibble4 w))

/-- `Permute(w)`: input position p moves to output position PBOX(p), so output position q takes input position PBOX⁻¹(q)
(R108, C2). -/
def permute (T : CipherTables) (w : Block) : Block := ofMsbBits fun q => msbBit w (T.pbox.symm q)

/-- `InvPermute(w)`: output position p takes input position PBOX(p) (R109). -/
def invPermute (T : CipherTables) (w : Block) : Block := ofMsbBits fun p => msbBit w (T.pbox p)

/-- `Round(s, K, r)`, the spec's r being in 1..3 (R110). -/
def cipherRound (T : CipherTables) (s : Block) (k : Word) (r : RoundIndex) : Block :=
  permute T (substitute T (keyMix s k r))

/-- `FinalRound(s, K)`: no permutation, then the output whitening with round key 5 (R110). -/
def finalRound (T : CipherTables) (s : Block) (k : Word) : Block := keyMix (substitute T (keyMix s k .four)) k .five

/-- `Encrypt(K, x)` (R111). -/
def encrypt (T : CipherTables) (k : Word) (x : Block) : Block :=
  finalRound T (cipherRound T (cipherRound T (cipherRound T x k .one) k .two) k .three) k

end Sys2Proof.Machine
end

