-- ==== Sys2Proof/WellFormed.lean ====
section
/-!
DEFINITION. Which instructions have an encoding of their own: RKEY and KXOR need a round index in 1..5 (R72, R74); every other
operand value is encodable.
-/
namespace Sys2Proof

/-- The legal RND values of RKEY and KXOR (R72, D30). -/
def roundFieldLegal (r : BitVec 3) : Bool := 1 ≤ r.toNat && r.toNat ≤ 5

/-- An instruction that a legal encoding stands for. -/
def Instr.wellFormed : Instr → Bool
  | .nop => true
  | .enc => true
  | .rkey r => roundFieldLegal r
  | .kxor r => roundFieldLegal r
  | .sub => true
  | .isub => true
  | .perm => true
  | .iperm => true
  | .busread _ => true
  | .buswrite _ _ => true

end Sys2Proof
end

