-- ==== Sys2Proof/Decode.lean ====
section
/-!
DEFINITION. The fields of a command word (R71), its legality (R74), the decoder, total on any bytes, and the encoder, both written
from the formats of R70, R71, R77 and R80.

The bytes of an encoding are its bits counted from bit 0, eight a byte, first byte first: one byte is a read access (4 bits, R80),
four bytes are a command word (32 bits), five bytes are a write access (36 bits, R80). The bits that fill up the last byte are 0.
The core itself has no byte order (R56): the order of these bytes is the model's (log 8).
-/
namespace Sys2Proof

/-- OP, bits 3:0 (R71). -/
def opField (v : Word) : BitVec 4 := v.extractLsb' 0 4

/-- RND, bits 6:4 (R71). -/
def rndField (v : Word) : BitVec 3 := v.extractLsb' 4 3

/-- RES, bits 31:7 (R71). -/
def resField (v : Word) : BitVec 25 := v.extractLsb' 7 25

/-- The opcode numbers of R73. -/
def Opcode.toBits : Opcode → BitVec 4
  | .nop => 0x0#4
  | .enc => 0x1#4
  | .rkey => 0x2#4
  | .kxor => 0x3#4
  | .sub => 0x4#4
  | .isub => 0x5#4
  | .perm => 0x6#4
  | .iperm => 0x7#4

/-- The opcode of a number, none for the reserved 0x8..0xF (R73). -/
def Opcode.ofBits (b : BitVec 4) : Option Opcode :=
  match b.toNat with
  | 0 => some .nop
  | 1 => some .enc
  | 2 => some .rkey
  | 3 => some .kxor
  | 4 => some .sub
  | 5 => some .isub
  | 6 => some .perm
  | 7 => some .iperm
  | _ => none

/-- The round index that a 3-bit field holds, none outside 1..5 (R72). -/
def RoundIndex.ofBits (b : BitVec 3) : Option RoundIndex :=
  match b.toNat with
  | 1 => some .one
  | 2 => some .two
  | 3 => some .three
  | 4 => some .four
  | 5 => some .five
  | _ => none

/-- The legality predicate of R74, as the rule writes it. -/
def legal (v : Word) : Bool :=
  resField v == 0 &&
    (([0x0#4, 0x1#4, 0x4#4, 0x5#4, 0x6#4, 0x7#4].contains (opField v) && rndField v == 0)
      || ([0x2#4, 0x3#4].contains (opField v) && roundFieldLegal (rndField v)))

/-- Why bytes are no instruction. -/
inductive DecodeError where
  /-- No format has this many bytes. -/
  | badLength (n : Nat)
  /-- A command word with OP in 0x8..0xF (R73). -/
  | reservedOpcode (op : BitVec 4)
  /-- A command word with RES not zero (R71). -/
  | reservedBitsSet
  /-- A command word whose RND its opcode does not allow (R72, D29, D30). -/
  | roundNotAllowed (r : BitVec 3)
  /-- A bit beyond the access format is set (R80). -/
  | strayBits
  /-- A write access (we = 1) without its 32 data bits (R80). -/
  | writeWithoutData
  /-- A read access (we = 0) with 32 data bits (R80). -/
  | readWithData
deriving DecidableEq, Repr

/-- The command an opcode and an RND field make, or none where RND is not allowed with that opcode (R72). -/
def commandOf (op : Opcode) (r : BitVec 3) : Option Instr :=
  match op with
  | .nop => if r = 0 then some .nop else none
  | .enc => if r = 0 then some .enc else none
  | .rkey => if roundFieldLegal r then some (.rkey r) else none
  | .kxor => if roundFieldLegal r then some (.kxor r) else none
  | .sub => if r = 0 then some .sub else none
  | .isub => if r = 0 then some .isub else none
  | .perm => if r = 0 then some .perm else none
  | .iperm => if r = 0 then some .iperm else none

/-- The decoder of a command word (R76). -/
def decodeCommand (v : Word) : Except DecodeError Instr :=
  if resField v = 0 then
    match Opcode.ofBits (opField v) with
    | none => .error (.reservedOpcode (opField v))
    | some op =>
      match commandOf op (rndField v) with
      | none => .error (.roundNotAllowed (rndField v))
      | some i => .ok i
  else .error .reservedBitsSet

/-- The decoder of the 4-bit access `w aaa` with w = 0 (R80). -/
def decodeRead (b : Byte) : Except DecodeError Instr :=
  if b.extractLsb' 4 4 = 0#4 then
    if b.getLsbD 3 then .error .writeWithoutData else .ok (.busread (b.extractLsb' 0 3))
  else .error .strayBits

/-- The decoder of the 36-bit access `w aaa d…` with w = 1 (R80). -/
def decodeWrite (x : BitVec 40) : Except DecodeError Instr :=
  if x.extractLsb' 36 4 = 0#4 then
    if x.getLsbD 35 then .ok (.buswrite (x.extractLsb' 32 3) (x.extractLsb' 0 32))
    else .error .readWithData
  else .error .strayBits

/-- The decoder: any bytes are an instruction or are rejected by name. -/
def decode : List Byte → Except DecodeError Instr
  | [b0] => decodeRead b0
  | [b0, b1, b2, b3] => decodeCommand (b3 ++ b2 ++ b1 ++ b0)
  | [b0, b1, b2, b3, b4] => decodeWrite (b4 ++ b3 ++ b2 ++ b1 ++ b0)
  | bs => .error (.badLength bs.length)

/-- `cmdword(OP, r)` of R77: `zext_32(r[2:0] ++ OP[3:0])`. -/
def cmdword (op : Opcode) (r : BitVec 3) : Word := (r ++ op.toBits).setWidth 32

/-- The 36 bits of a write access, filled up to 40 (R80). -/
def writeFrame (idx : BitVec 3) (v : Word) : BitVec 40 := 0#4 ++ 1#1 ++ idx ++ v

/-- The 4 bits of a read access, filled up to 8 (R80). -/
def readFrame (idx : BitVec 3) : Byte := 0#4 ++ 0#1 ++ idx

/-- The four bytes of a word, bits 7:0 first (log 8). -/
def wordBytes (v : Word) : List Byte :=
  [v.extractLsb' 0 8, v.extractLsb' 8 8, v.extractLsb' 16 8, v.extractLsb' 24 8]

/-- The five bytes of a write access, bits 7:0 first (log 8). -/
def writeBytes (idx : BitVec 3) (v : Word) : List Byte :=
  let x := writeFrame idx v
  [x.extractLsb' 0 8, x.extractLsb' 8 8, x.extractLsb' 16 8, x.extractLsb' 24 8, x.extractLsb' 32 8]

/-- The encoder. -/
def encode : Instr → List Byte
  | .nop => wordBytes (cmdword .nop 0)
  | .enc => wordBytes (cmdword .enc 0)
  | .rkey r => wordBytes (cmdword .rkey r)
  | .kxor r => wordBytes (cmdword .kxor r)
  | .sub => wordBytes (cmdword .sub 0)
  | .isub => wordBytes (cmdword .isub 0)
  | .perm => wordBytes (cmdword .perm 0)
  | .iperm => wordBytes (cmdword .iperm 0)
  | .busread idx => [readFrame idx]
  | .buswrite idx v => writeBytes idx v

/-- The first `n` bytes of a number, low bits first. -/
def bytesOfNat : Nat → Nat → List Byte
  | 0, _ => []
  | n + 1, w => BitVec.ofNat 8 w :: bytesOfNat n (w / 256)

/-- How many bytes the format has whose opcode-table row has `nbits` bits: 8 or fewer is the read access, up to 32 a command
word, more is the write access. -/
def formatBytes (nbits : Nat) : Nat :=
  if nbits ≤ 8 then 1 else if nbits ≤ 32 then 4 else 5

/-- The instruction the decoder reads from an opcode-table word of `nbits` bits, none where it refuses. -/
def decodeTableWord (nbits w : Nat) : Option Instr :=
  if w < 2 ^ (8 * formatBytes nbits) then
    match decode (bytesOfNat (formatBytes nbits) w) with
    | .ok i => some i
    | .error _ => none
  else none

end Sys2Proof
end

