-- ==== Sys2Proof/Machine/Flags.lean ====
section
/-!
DEFINITION. The status flags: the words CTRL and STATUS read as (R23, R24), write-1-to-clear (R25), and the interrupt output (R156).
The core has no condition codes (R36).
-/
namespace Sys2Proof.Machine

/-- What CTRL reads as: `zext_32(IE)` (R23, R54). -/
def ctrlWord (s : State) : Word := (BitVec.ofBool s.ie).setWidth 32

/-- What STATUS reads as: `zext_32(RCNT ++ ERR_BUSY ++ ERR_CMD ++ DONE ++ BUSY)` (R24, R54). -/
def statusWord (s : State) : Word :=
  (s.rcnt ++ BitVec.ofBool s.errBusy ++ BitVec.ofBool s.errCmd ++ BitVec.ofBool s.done
    ++ BitVec.ofBool s.busy).setWidth 32

/-- A write of `v` to STATUS: bits 3:1 clear ERR_BUSY, ERR_CMD and DONE where they are 1; the other bits are ignored (R25). It is
also how the host leaves an error condition (R155). -/
def clearStatus (v : Word) (s : State) : State :=
  { s with
    done := s.done && !v.getLsbD 1
    errCmd := s.errCmd && !v.getLsbD 2
    errBusy := s.errBusy && !v.getLsbD 3 }

/-- The interrupt output: `irq = IE & (DONE | ERR_CMD | ERR_BUSY)` (R156). -/
def irq (s : State) : Bool := s.ie && (s.done || s.errCmd || s.errBusy)

end Sys2Proof.Machine
end

