-- ==== Sys2Proof/Machine/Ops.lean ====
section
/-!
DEFINITION. The named operations over the registers: raising an error condition (R150 to R155), accepting and completing a command
(R121, R123), presenting a command word (R120), the two host accesses (R54, R55), reset (R170), and fetching from the port (R76).
-/
namespace Sys2Proof.Machine

/-- The two error conditions (R150). -/
inductive ErrorCondition where
  /-- An illegal command word written while idle (R151). -/
  | cmdError
  /-- A write to CMD, KEY or DIN while busy (R152). -/
  | busyError
deriving DecidableEq, Repr

/-- The cause code: the number of the STATUS bit that the condition sets (R151, R152). -/
def causeCode : ErrorCondition → Nat
  | .cmdError => 2
  | .busyError => 3

/-- `raise CmdError()` and `raise BusyError()`: the condition's sticky bit is set and nothing else changes: no state is saved, no
mode changes, no control is transferred (R150, R153, R154). The way back is `clearStatus` (R155). -/
def raiseError (e : ErrorCondition) (s : State) : State :=
  { s with
    errCmd := s.errCmd || e = .cmdError
    errBusy := s.errBusy || e = .busyError }

/-- `Accept(v)` (R121): ENC also loads ST from DIN and sets RCNT to 1. -/
def accept (v : Word) (s : State) : State :=
  { s with
    done := false
    busy := true
    opc := opField v
    rsel := rndField v
    st := if opField v = Opcode.enc.toBits then s.din else s.st
    rcnt := if opField v = Opcode.enc.toBits then 1#3 else 0#3 }

/-- `Command(v)`: the busy check comes before the legality check (R120, R153). -/
def command (v : Word) (s : State) : State :=
  if s.busy then raiseError .busyError s
  else if legal v then accept v s
  else raiseError .cmdError s

/-- The registers after the core step that completes a single-layer command with result `out` (R123). -/
def complete (out : Block) (s : State) : State :=
  { s with dout := out, busy := false, done := true, rcnt := 0#3 }

/-- `BusRead(idx)`: the value, with no change of any register (R54). -/
def busReadValue (idx : BitVec 3) (s : State) : Word :=
  match regAt idx with
  | .ctrl => ctrlWord s
  | .status => statusWord s
  | .cmd => 0x00000000#32
  | .key => s.key
  | .din => s.din.setWidth 32
  | .dout => s.dout.setWidth 32
  | .id => Config.idWord
  | .reserved => 0x00000000#32

/-- The write of a register that is locked while busy: KEY and DIN (R55, R152). -/
def lockedWrite (written s : State) : State := if s.busy then raiseError .busyError s else written

/-- `BusWrite(idx, v)` (R55). -/
def busWriteEffect (idx : BitVec 3) (v : Word) (s : State) : State :=
  match regAt idx with
  | .ctrl => { s with ie := v.getLsbD 0 }
  | .status => clearStatus v s
  | .cmd => command v s
  | .key => lockedWrite { s with key := v } s
  | .din => lockedWrite { s with din := v.extractLsb' 0 16 } s
  | .dout => s
  | .id => s
  | .reserved => s

/-- A rising edge with `rst` = 1: every register takes its reset value, whatever else the cycle holds (R170, R171). -/
def resetEvent (s : State) : State := { State.reset with inputs := s.inputs }

/-- A cycle in which the host presents nothing and reset is deasserted (R51). -/
def PortCycle.idle : PortCycle := ⟨false, false, false, 0#3, 0#32⟩

/-- The bytes of the instruction that a cycle with `sel` = 1 presents: a write to word index 2 presents the command word, every
other access is in the host-access format (R70, R76). -/
def fetchBytes (c : PortCycle) : List Byte :=
  if c.we then
    if c.addr = regIndex .cmd then wordBytes c.wdata else writeBytes c.addr c.wdata
  else [readFrame c.addr]

/-- The instruction that a cycle with `sel` = 1 presents. A write to CMD of a word that is no legal command is still a write: R75
has it raise its error, so it runs as BUSWRITE (log 9, log 10). -/
def presented (c : PortCycle) : Instr :=
  match decode (fetchBytes c) with
  | .ok i => i
  | .error _ => .buswrite c.addr c.wdata

/-- The cycle in which the host presents the opcode-table word `w` of `nbits` bits (R70, R80). -/
def cycleOfTableWord (nbits w : Nat) : PortCycle :=
  match formatBytes nbits with
  | 1 => ⟨false, true, false, BitVec.ofNat 3 w, 0#32⟩
  | 4 => ⟨false, true, true, regIndex .cmd, BitVec.ofNat 32 w⟩
  | _ => ⟨false, true, true, BitVec.ofNat 3 (w / 2 ^ 32), BitVec.ofNat 32 w⟩

end Sys2Proof.Machine
end

