-- ==== Sys2Proof/Machine/Commands.lean ====
section
/-!
DEFINITION. The single-layer commands (41_commands.md). Each has two parts, in two definitions beside each other: `exec…` is the
host's write of the command word, at whose edge the command is accepted or turned away (R120, R121), and `finish…` is the core step
that completes it, at the next edge (R122, R123; log 17).
-/
namespace Sys2Proof.Machine

/-- A core step that completes a command which takes no round: RSEL must be 0 (R35, U7). -/
def finishPlain (out : Block) (s : State) : Host.Outcome State Fault Refusal :=
  if s.rsel = 0#3 then .next (complete out s) else .fault .stuckRoundSelect

/-- A core step that completes a command whose round index is in RSEL: RSEL must be in 1..5 (R35, U7, U8). -/
def finishRound (out : RoundIndex → Block) (s : State) : Host.Outcome State Fault Refusal :=
  match RoundIndex.ofBits s.rsel with
  | some r => .next (complete (out r) s)
  | none => .fault .stuckRoundSelect

/-- NOP, the write (R124). -/
def execNop (s : State) : Host.Outcome State Fault Refusal := .next (command (cmdword .nop 0) s)

/-- NOP, the core step: DOUT keeps its value (R123, R124). -/
def finishNop (s : State) : Host.Outcome State Fault Refusal := finishPlain s.dout s

/-- RKEY r, the write (R125). -/
def execRkey (r : BitVec 3) (s : State) : Host.Outcome State Fault Refusal := .next (command (cmdword .rkey r) s)

/-- RKEY, the core step: `DOUT <- RoundKey(KEY, RSEL)` (R123, R125). -/
def finishRkey (s : State) : Host.Outcome State Fault Refusal := finishRound (roundKey s.key) s

/-- KXOR r, the write (R126). -/
def execKxor (r : BitVec 3) (s : State) : Host.Outcome State Fault Refusal := .next (command (cmdword .kxor r) s)

/-- KXOR, the core step: `DOUT <- KeyMix(DIN, KEY, RSEL)` (R123, R126). -/
def finishKxor (s : State) : Host.Outcome State Fault Refusal := finishRound (keyMix s.din s.key) s

/-- SUB, the write (R127). -/
def execSub (s : State) : Host.Outcome State Fault Refusal := .next (command (cmdword .sub 0) s)

/-- SUB, the core step: `DOUT <- Substitute(DIN)` (R123, R127). -/
def finishSub (T : CipherTables) (s : State) : Host.Outcome State Fault Refusal := finishPlain (substitute T s.din) s

/-- ISUB, the write (R128). -/
def execIsub (s : State) : Host.Outcome State Fault Refusal := .next (command (cmdword .isub 0) s)

/-- ISUB, the core step: `DOUT <- InvSubstitute(DIN)` (R123, R128). -/
def finishIsub (T : CipherTables) (s : State) : Host.Outcome State Fault Refusal := finishPlain (invSubstitute T s.din) s

/-- PERM, the write (R129). -/
def execPerm (s : State) : Host.Outcome State Fault Refusal := .next (command (cmdword .perm 0) s)

/-- PERM, the core step: `DOUT <- Permute(DIN)` (R123, R129). -/
def finishPerm (T : CipherTables) (s : State) : Host.Outcome State Fault Refusal := finishPlain (permute T s.din) s

/-- IPERM, the write (R130). -/
def execIperm (s : State) : Host.Outcome State Fault Refusal := .next (command (cmdword .iperm 0) s)

/-- IPERM, the core step: `DOUT <- InvPermute(DIN)` (R123, R130). -/
def finishIperm (T : CipherTables) (s : State) : Host.Outcome State Fault Refusal := finishPlain (invPermute T s.din) s

end Sys2Proof.Machine
end

