-- ==== Sys2Proof/Machine/Encrypt.lean ====
section
/-!
DEFINITION. ENC (42_encrypt.md): the write that accepts it, and its four core steps, one round each.
-/
namespace Sys2Proof.Machine

/-- ENC, the write (R140). -/
def execEnc (s : State) : Host.Outcome State Fault Refusal := .next (command (cmdword .enc 0) s)

/-- The registers after the round step of round r, r in 1..3: only ST and RCNT change (R141). -/
def encRound (T : CipherTables) (r : RoundIndex) (s : State) : State :=
  { s with st := cipherRound T s.st s.key r, rcnt := BitVec.ofNat 3 (roundNumber r + 1) }

/-- The registers after the final round step, round 4 (R143). -/
def encFinal (T : CipherTables) (s : State) : State :=
  { s with
    st := finalRound T s.st s.key
    dout := finalRound T s.st s.key
    rcnt := 0#3
    busy := false
    done := true }

/-- ENC, one core step: RCNT alone chooses between the round step and the final step (R141, R143, R146). RCNT in 5..7 and
RSEL other than 0 are stuck (U7), and so is RCNT = 0, which U7 does not list (DESIGN CHOICE, log 11). -/
def finishEnc (T : CipherTables) (s : State) : Host.Outcome State Fault Refusal :=
  if s.rsel = 0#3 then
    match RoundIndex.ofBits s.rcnt with
    | some .one => .next (encRound T .one s)
    | some .two => .next (encRound T .two s)
    | some .three => .next (encRound T .three s)
    | some .four => .next (encFinal T s)
    | some .five => .fault .stuckRoundCounter
    | none => .fault .stuckRoundCounter
  else .fault .stuckRoundSelect

end Sys2Proof.Machine
end

