-- ==== Sys2Proof/Machine/CoreStep.lean ====
section
/-!
DEFINITION. The core's own step (R17, R122): one unit of work while BUSY = 1, for any pair of tables.
-/
namespace Sys2Proof.Machine

/-- LAT(OPC): the core steps of a command (R122). -/
def latency : Opcode → Nat
  | .enc => Config.latEnc
  | .nop => Config.latOther
  | .rkey => Config.latOther
  | .kxor => Config.latOther
  | .sub => Config.latOther
  | .isub => Config.latOther
  | .perm => Config.latOther
  | .iperm => Config.latOther

/-- One core step. With BUSY = 0 there is none and nothing changes (R162). With BUSY = 1 it is the step of the command latched in
OPC (R123, R141, R143); OPC in 0x8..0xF and RCNT in 5..7 are stuck (U7, log 11). -/
def coreStep (T : CipherTables) (s : State) : Host.Outcome State Fault Refusal :=
  if s.busy then
    if 4 < s.rcnt.toNat then .fault .stuckRoundCounter
    else
      match Opcode.ofBits s.opc with
      | some .nop => finishNop s
      | some .enc => finishEnc T s
      | some .rkey => finishRkey s
      | some .kxor => finishKxor s
      | some .sub => finishSub T s
      | some .isub => finishIsub T s
      | some .perm => finishPerm T s
      | some .iperm => finishIperm T s
      | none => .fault .stuckOpcode
  else .next s

end Sys2Proof.Machine
end

