-- ==== Sys2Proof/Machine/Bus.lean ====
section
/-!
DEFINITION. The two host accesses of the port (R54, R55).
-/
namespace Sys2Proof.Machine

/-- BUSREAD: drives the register's value on `rdata` and changes no register (R54; log 7). -/
def execBusread (idx : BitVec 3) (s : State) : Host.Outcome State Fault Refusal :=
  .next { s with rdata := some (busReadValue idx s) }

/-- BUSWRITE: the register's write effect; at word index 2 it is Command(v) (R55, R120). -/
def execBuswrite (idx : BitVec 3) (v : Word) (s : State) : Host.Outcome State Fault Refusal :=
  .next (busWriteEffect idx v s)

end Sys2Proof.Machine
end

