-- ==== Sys2Proof/Machine/Dispatch.lean ====
section
/-!
DEFINITION. The meaning of each instruction: what the access it presents does at its clock edge (R55, R120, R121). The core steps that
complete a command are Machine/CoreStep.lean's.
-/
namespace Sys2Proof.Machine

def exec (i : Instr) (s : State) : Host.Outcome State Fault Refusal :=
  match i with
  | .nop => Sys2Proof.Machine.execNop s
  | .enc => Sys2Proof.Machine.execEnc s
  | .rkey r => Sys2Proof.Machine.execRkey r s
  | .kxor r => Sys2Proof.Machine.execKxor r s
  | .sub => Sys2Proof.Machine.execSub s
  | .isub => Sys2Proof.Machine.execIsub s
  | .perm => Sys2Proof.Machine.execPerm s
  | .iperm => Sys2Proof.Machine.execIperm s
  | .busread idx => Sys2Proof.Machine.execBusread idx s
  | .buswrite idx data => Sys2Proof.Machine.execBuswrite idx data s

end Sys2Proof.Machine
end

