-- ==== Sys2Proof/Machine/Clock.lean ====
section
/-!
DEFINITION. One rising edge of `clk` (R51, R122, R170, R177): reset, or the access of the cycle merged with the core step of the cycle.
-/
namespace Sys2Proof.Machine

/-- The access of a cycle, on the state before the edge; nothing where `sel` = 0 (R51). -/
def portAccess (c : PortCycle) (s : State) : Host.Outcome State Fault Refusal :=
  if c.sel then exec (presented c) s else .next s

/-- The updates of one edge merged (R177). `pre` is the state before the edge, `acc` that state after the access alone, `core` that
state after the core step alone. Where BUSY was 0 no core step occurred. Where it was 1, the core step decides BUSY, RCNT, ST and
DOUT, the access decides IE, the error bits and `rdata` (a CMD, KEY or DIN write was dropped), and DONE, the only field both write,
is set if the core step completed the command. -/
def mergeEdge (pre acc core : State) : State :=
  if pre.busy then
    { acc with
      busy := core.busy
      rcnt := core.rcnt
      st := core.st
      dout := core.dout
      done := acc.done || !core.busy }
  else acc

/-- One edge at which the port is driven as `c`. Reset takes precedence over every other event (R170). -/
def clockEdge (T : CipherTables) (c : PortCycle) (s : State) : Host.Outcome State Fault Refusal :=
  if c.rst then .next (resetEvent s)
  else
    match portAccess c s with
    | .next acc =>
      match coreStep T s with
      | .next core => .next (mergeEdge s acc core)
      | .fault e => .fault e
      | .refused e => .refused e
    | .fault e => .fault e
    | .refused e => .refused e

/-- What the host drives in the coming cycle; nothing once its list is at its end (log 6). -/
def nextCycle (s : State) : PortCycle := s.inputs.headD PortCycle.idle

/-- The state as the coming cycle begins: its port signals taken from the list, and `rdata` not valid until it is read (R51). -/
def openCycle (s : State) : State := { s with rdata := none, inputs := s.inputs.tail }

/-- One clock cycle, for any pair of tables (R9, R10). -/
def stepWith (T : CipherTables) (s : State) : Host.Outcome State Fault Refusal :=
  clockEdge T (nextCycle s) (openCycle s)

/-- `n` clock cycles, up to the first stop. -/
def runWith (T : CipherTables) : Nat → State → Host.Outcome State Fault Refusal
  | 0, s => .next s
  | n + 1, s =>
    match stepWith T s with
    | .next t => runWith T n t
    | .fault e => .fault e
    | .refused e => .refused e

end Sys2Proof.Machine
end

