-- ==== Sys2Proof/Machine/Step.lean ====
section
/-!
DEFINITION. The machine's step, one clock cycle with the build's tables, and where its next instruction is fetched: the next cycle of
the host port (log 6).
-/
namespace Sys2Proof.Machine

/-- One clock cycle of the machine. -/
def step (s : State) : Host.Outcome State Fault Refusal := stepWith Config.tables s

/-- `s` with the host presenting the opcode-table word `w` of `nbits` bits in the very next cycle. -/
def State.withFetchWord (s : State) (nbits w : Nat) : State :=
  { s with inputs := cycleOfTableWord nbits w :: s.inputs }

end Sys2Proof.Machine
end

