-- ==== Sys2Proof/Machine/HostProgram.lean ====
section
/-!
DEFINITION. Host programs (R78, R79): the lines of the assembly notation as data (log 16), their expansion, and a host that runs them
on the port, one access a clock cycle, with the polling loop of `wait` as its own control flow.
-/
namespace Sys2Proof.Machine

/-- A written value: a 32-bit literal or a bound name (R78). -/
inductive HostValue where
  | lit (v : Word)
  | bound (name : String)
deriving DecidableEq, Repr

/-- One line of a host program (R78), the pseudo-instructions of R79 among them. -/
inductive HostLine where
  /-- `rd <reg>`, with or without `-> <name>`. -/
  | rd (r : Reg) (name : Option String)
  /-- `wr <reg>, <value>`. -/
  | wr (r : Reg) (v : HostValue)
  /-- A command mnemonic, with r = 0 when no operand is written. -/
  | mnemonic (op : Opcode) (r : Nat)
  /-- `wait`. -/
  | wait
  /-- `ack`. -/
  | ack
  /-- `ie <b>`. -/
  | ie (b : HostValue)
  /-- `copy`. -/
  | copy
  /-- `encrypt <K>, <P> -> <y>`. -/
  | encrypt (k p : HostValue) (y : String)
  /-- `roundkey <K>, <r> -> <k>`. -/
  | roundkey (k : HostValue) (r : Nat) (name : String)
deriving DecidableEq, Repr

/-- What the host does in one cycle, or until BUSY is seen at 0. -/
inductive HostOp where
  | read (r : Reg) (name : Option String)
  | write (r : Reg) (v : HostValue)
  | poll
deriving DecidableEq, Repr

/-- `wr CMD, cmdword(OP, r)`; the assembler refuses an operand the mnemonic does not take (R78). -/
def assembleCommand (op : Opcode) (r : Nat) : Option (List HostOp) :=
  if r < 8 then
    (commandOf op (BitVec.ofNat 3 r)).map fun _ => [.write .cmd (.lit (cmdword op (BitVec.ofNat 3 r)))]
  else none

/-- The expansions of R79; none where the assembler refuses the line (R78). -/
def expandLine : HostLine → Option (List HostOp)
  | .rd r name => some [.read r name]
  | .wr r v => some [.write r v]
  | .mnemonic op r => assembleCommand op r
  | .wait => some [.poll]
  | .ack => some [.write .status (.lit 0x0000000E#32)]
  | .ie b => some [.write .ctrl b]
  | .copy => some [.read .dout (some "t"), .write .din (.bound "t")]
  | .encrypt k p y =>
    (assembleCommand .enc 0).map fun c => [.write .key k, .write .din p] ++ c ++ [.poll, .read .dout (some y)]
  | .roundkey k r name =>
    (assembleCommand .rkey r).map fun c => [.write .key k] ++ c ++ [.poll, .read .dout (some name)]

/-- A whole program; none where the assembler refuses a line. -/
def assemble (ls : List HostLine) : Option (List HostOp) := (ls.mapM expandLine).map List.flatten

/-- A host with the rest of its program, the names it has bound, and the core it drives (R147). -/
structure HostRun where
  program : List HostOp
  env : List (String × Word)
  core : State
deriving DecidableEq, Repr

/-- Why a host program cannot go on. -/
inductive HostRefusal where
  /-- A line uses a name that no earlier line bound (R78). Safe. -/
  | unboundName (name : String)
  /-- The core refused. -/
  | core (r : Refusal)
deriving DecidableEq, Repr

/-- The value of an operand. -/
def valueOf (env : List (String × Word)) : HostValue → Except HostRefusal Word
  | .lit v => .ok v
  | .bound x =>
    match env.lookup x with
    | some v => .ok v
    | none => .error (.unboundName x)

/-- The cycle in which the host performs an operation (R51, R70); `poll` reads STATUS (R79). -/
def cycleOfOp (env : List (String × Word)) : HostOp → Except HostRefusal PortCycle
  | .read r _ => .ok ⟨false, true, false, regIndex r, 0#32⟩
  | .write r v =>
    match valueOf env v with
    | .ok w => .ok ⟨false, true, true, regIndex r, w⟩
    | .error e => .error e
  | .poll => .ok ⟨false, true, false, regIndex .status, 0#32⟩

/-- The names bound after an operation that saw `rdata`; `wait` binds `s` (R79). -/
def bindAfter (op : HostOp) (rdata : Option Word) (env : List (String × Word)) : List (String × Word) :=
  match op, rdata with
  | .read _ (some x), some v => (x, v) :: env
  | .poll, some v => ("s", v) :: env
  | _, _ => env

/-- The rest of the program after an operation that saw `rdata`: `wait` repeats while bit 0 of STATUS is 1 (R79). -/
def programAfter (op : HostOp) (rdata : Option Word) (rest : List HostOp) : List HostOp :=
  match op with
  | .poll => if (rdata.getD 0#32).getLsbD 0 then .poll :: rest else rest
  | .read _ _ => rest
  | .write _ _ => rest

/-- One clock cycle of host and core together. -/
def hostCycle (T : CipherTables) (h : HostRun) : Host.Outcome HostRun Fault HostRefusal :=
  match h.program with
  | [] =>
    match stepWith T { h.core with inputs := [] } with
    | .next t => .next { h with core := t }
    | .fault e => .fault e
    | .refused e => .refused (.core e)
  | op :: rest =>
    match cycleOfOp h.env op with
    | .error e => .refused e
    | .ok c =>
      match stepWith T { h.core with inputs := [c] } with
      | .next t => .next ⟨programAfter op t.rdata rest, bindAfter op t.rdata h.env, t⟩
      | .fault e => .fault e
      | .refused e => .refused (.core e)

/-- `n` clock cycles of host and core together, up to the first stop. -/
def hostRun (T : CipherTables) : Nat → HostRun → Host.Outcome HostRun Fault HostRefusal
  | 0, h => .next h
  | n + 1, h =>
    match hostCycle T h with
    | .next t => hostRun T n t
    | .fault e => .fault e
    | .refused e => .refused e

/-- A run has ended when the host has no access left and BUSY = 0 (R147). -/
def runEnded (h : HostRun) : Bool := h.program.isEmpty && !h.core.busy

end Sys2Proof.Machine
end

