-- ==== Sys2Proof/Machine/AssemblyText.lean ====
section
/-!
DEFINITION. The text of host programs (R78, R79): from the characters of a program to its lines as data. What R78 leaves open of the
text is log 16's (DESIGN CHOICE): a line ends at a line feed and may be empty; spaces, tabs and carriage returns separate words and `,`
is a word of its own; a literal is decimal or `0x` hexadecimal, and a name begins with a letter or `_`.
-/
namespace Sys2Proof.Machine

/-- A word under way, kept in reverse, as a finished word if it has a character. -/
def finishWord (cur : List Char) : List (List Char) := if cur.isEmpty then [] else [cur.reverse]

/-- The words of a line; `;` begins a comment (R78). That a space, a tab and a carriage return separate words, and that `,` is a word of
its own, is the model's choice (DESIGN CHOICE, log 16). -/
def wordsOfLine : List Char → List Char → List (List Char)
  | [], cur => finishWord cur
  | c :: cs, cur =>
    if c = ';' then finishWord cur
    else if c = ' ' ∨ c = '\t' ∨ c = '\r' then finishWord cur ++ wordsOfLine cs []
    else if c = ',' then finishWord cur ++ [','] :: wordsOfLine cs []
    else wordsOfLine cs (c :: cur)

/-- The value of a digit, in bases up to 16. -/
def digitOfChar (c : Char) : Option Nat :=
  if '0' ≤ c ∧ c ≤ '9' then some (c.toNat - '0'.toNat)
  else if 'a' ≤ c ∧ c ≤ 'f' then some (c.toNat - 'a'.toNat + 10)
  else if 'A' ≤ c ∧ c ≤ 'F' then some (c.toNat - 'A'.toNat + 10)
  else none

/-- The number of digits in a base, after those already read. -/
def numberFrom (base acc : Nat) : List Char → Option Nat
  | [] => some acc
  | c :: cs =>
    match digitOfChar c with
    | some d => if d < base then numberFrom base (base * acc + d) cs else none
    | none => none

/-- A literal: `0x` and hexadecimal digits of either case, or decimal digits (DESIGN CHOICE, log 16). -/
def numberOfWord : List Char → Option Nat
  | '0' :: 'x' :: d :: ds => numberFrom 16 0 (d :: ds)
  | d :: ds => numberFrom 10 0 (d :: ds)
  | [] => none

/-- A name that can be bound (R78); its characters are log 16's (DESIGN CHOICE). -/
def nameOfWord : List Char → Option String
  | c :: cs =>
    if (c.isAlpha || c = '_') && cs.all (fun d => d.isAlphanum || d = '_') then some (String.ofList (c :: cs)) else none
  | [] => none

/-- A `<value>`: a 32-bit literal or a name (R78). -/
def valueOfWord (w : List Char) : Option HostValue :=
  match numberOfWord w with
  | some n => if n < 2 ^ 32 then some (.lit (BitVec.ofNat 32 n)) else none
  | none => (nameOfWord w).map .bound

/-- A `<reg>`: a register's name, or `[n]` for word index n; word index 7 has no other name (R78). -/
def regOfWord : List Char → Option Reg
  | ['C', 'T', 'R', 'L'] => some .ctrl
  | ['S', 'T', 'A', 'T', 'U', 'S'] => some .status
  | ['C', 'M', 'D'] => some .cmd
  | ['K', 'E', 'Y'] => some .key
  | ['D', 'I', 'N'] => some .din
  | ['D', 'O', 'U', 'T'] => some .dout
  | ['I', 'D'] => some .id
  | ['[', d, ']'] =>
    match digitOfChar d with
    | some n => if n < 8 then some (regAt (BitVec.ofNat 3 n)) else none
    | none => none
  | _ => none

/-- The words of one line as a host line; `some none` for a line with nothing on it, `none` where the assembler refuses (R78, R79). -/
def lineOfWords : List (List Char) → Option (Option HostLine)
  | [] => some none
  | [['r', 'd'], r] => (regOfWord r).map fun r => some (.rd r none)
  | [['r', 'd'], r, ['-', '>'], x] => do return some (.rd (← regOfWord r) (some (← nameOfWord x)))
  | [['w', 'r'], r, [','], v] => do return some (.wr (← regOfWord r) (← valueOfWord v))
  | [['n', 'o', 'p']] => some (some (.mnemonic .nop 0))
  | [['e', 'n', 'c']] => some (some (.mnemonic .enc 0))
  | [['s', 'u', 'b']] => some (some (.mnemonic .sub 0))
  | [['i', 's', 'u', 'b']] => some (some (.mnemonic .isub 0))
  | [['p', 'e', 'r', 'm']] => some (some (.mnemonic .perm 0))
  | [['i', 'p', 'e', 'r', 'm']] => some (some (.mnemonic .iperm 0))
  | [['r', 'k', 'e', 'y'], r] => (numberOfWord r).map fun r => some (.mnemonic .rkey r)
  | [['k', 'x', 'o', 'r'], r] => (numberOfWord r).map fun r => some (.mnemonic .kxor r)
  | [['w', 'a', 'i', 't']] => some (some .wait)
  | [['a', 'c', 'k']] => some (some .ack)
  | [['i', 'e'], b] => (valueOfWord b).map fun b => some (.ie b)
  | [['c', 'o', 'p', 'y']] => some (some .copy)
  | [['e', 'n', 'c', 'r', 'y', 'p', 't'], k, [','], p, ['-', '>'], y] => do
    return some (.encrypt (← valueOfWord k) (← valueOfWord p) (← nameOfWord y))
  | [['r', 'o', 'u', 'n', 'd', 'k', 'e', 'y'], k, [','], r, ['-', '>'], y] => do
    return some (.roundkey (← valueOfWord k) (← numberOfWord r) (← nameOfWord y))
  | _ => none

/-- The lines of a text: a line feed ends a line (DESIGN CHOICE, log 16). -/
def splitLines : List Char → List Char → List (List Char)
  | [], cur => [cur.reverse]
  | c :: cs, cur => if c = '\n' then cur.reverse :: splitLines cs [] else splitLines cs (c :: cur)

/-- A program's text as host lines; none where the assembler refuses a line (R78). -/
def parseProgram (text : List Char) : Option (List HostLine) :=
  ((splitLines text []).mapM fun l => lineOfWords (wordsOfLine l [])).map (List.filterMap id)

/-- The assembler: a program's text as the accesses of R79's expansions; none where it refuses a line. -/
def assembleText (text : List Char) : Option (List HostOp) := (parseProgram text).bind assemble

end Sys2Proof.Machine
end

