-- ==== Sys2Proof/Machine/Interleaving.lean ====
section
/-!
DEFINITION. The interleaving model that the spec admits beside the cycle model (R61, D27): host accesses, core steps and resets are
atomic moves in any order. The machine's step is the cycle model; this file is for statements that compare the two (R177).
-/
namespace Sys2Proof.Machine

/-- One atomic move (R61). -/
inductive Move where
  /-- A reset edge (R170). -/
  | reset
  /-- One host access (R17). -/
  | access (i : Instr)
  /-- One core step (R17). -/
  | core
deriving DecidableEq, Repr

/-- What a move does. R51 and R61 give `rdata` no value after a move that reads nothing: a write or a core step keeps the value last
read, until the next read or reset. DESIGN CHOICE (log 18), unsafe. -/
def moveStep (T : CipherTables) (m : Move) (s : State) : Host.Outcome State Fault Refusal :=
  match m with
  | .reset => .next (resetEvent s)
  | .access i => exec i s
  | .core => coreStep T s

/-- Moves in order, up to the first stop. -/
def runMoves (T : CipherTables) : List Move → State → Host.Outcome State Fault Refusal
  | [], s => .next s
  | m :: ms, s =>
    match moveStep T m s with
    | .next t => runMoves T ms t
    | .fault e => .fault e
    | .refused e => .refused e

/-- The interleaving that one clock cycle is: the access first, then the core step if BUSY was 1 before the edge (R177). -/
def cycleMoves (c : PortCycle) (pre : State) : List Move :=
  if c.rst then [.reset]
  else (if c.sel then [.access (presented c)] else []) ++ (if pre.busy then [.core] else [])

end Sys2Proof.Machine
end

