-- ==== Sys2Proof/Safety.lean ====
section
/-!
DEFINITION. What a safe state is (R35), and the terms the statements use: a command's result, the core steps it has left, and states
that differ only in data.
-/
namespace Sys2Proof.Machine

/-- BUSY = 0 implies RCNT = 0 (R35). -/
abbrev IdleHasNoRound (s : State) : Prop := s.busy = false → s.rcnt = 0#3

/-- BUSY = 1 and OPC = ENC implies RCNT in 1..4 (R35). -/
abbrev EncHasRound (s : State) : Prop :=
  s.busy = true → s.opc = Opcode.enc.toBits → 1 ≤ s.rcnt.toNat ∧ s.rcnt.toNat ≤ 4

/-- BUSY = 1 and OPC other than ENC implies RCNT = 0 (R35). -/
abbrev PlainHasNoRound (s : State) : Prop := s.busy = true → s.opc ≠ Opcode.enc.toBits → s.rcnt = 0#3

/-- OPC holds a legal opcode, 0x0..0x7 (R35). -/
abbrev OpcodeLegal (s : State) : Prop := s.opc.toNat ≤ 7

/-- RSEL is in 1..5 when OPC is RKEY or KXOR, and 0 when OPC is any other opcode (R35). -/
abbrev SelectLegal (s : State) : Prop :=
  if s.opc = Opcode.rkey.toBits ∨ s.opc = Opcode.kxor.toBits then 1 ≤ s.rsel.toNat ∧ s.rsel.toNat ≤ 5
  else s.rsel = 0#3

/-- The five invariants of R35 together. -/
abbrev StateInv (s : State) : Prop :=
  IdleHasNoRound s ∧ EncHasRound s ∧ PlainHasNoRound s ∧ OpcodeLegal s ∧ SelectLegal s

/-- The core steps the command in progress still needs: 0 while idle, one for each round left of ENC, else 1 (R122, R146). -/
def stepsLeft (s : State) : Nat :=
  if s.busy then (if s.opc = Opcode.enc.toBits then 5 - s.rcnt.toNat else 1) else 0

/-- The Block a legal command leaves in DOUT, as a function of the registers when it is accepted (R73, R131); none for an instruction
that is no legal command. NOP leaves DOUT as it is. -/
def commandResult (T : CipherTables) (i : Instr) (s : State) : Option Block :=
  match i with
  | .nop => some s.dout
  | .enc => some (encrypt T s.key s.din)
  | .rkey r => (RoundIndex.ofBits r).map (roundKey s.key)
  | .kxor r => (RoundIndex.ofBits r).map (keyMix s.din s.key)
  | .sub => some (substitute T s.din)
  | .isub => some (invSubstitute T s.din)
  | .perm => some (permute T s.din)
  | .iperm => some (invPermute T s.din)
  | .busread _ => none
  | .buswrite _ _ => none

/-- The command word of a legal command (R77). -/
def commandWord : Instr → Option Word
  | .nop => some (cmdword .nop 0)
  | .enc => some (cmdword .enc 0)
  | .rkey r => if roundFieldLegal r then some (cmdword .rkey r) else none
  | .kxor r => if roundFieldLegal r then some (cmdword .kxor r) else none
  | .sub => some (cmdword .sub 0)
  | .isub => some (cmdword .isub 0)
  | .perm => some (cmdword .perm 0)
  | .iperm => some (cmdword .iperm 0)
  | .busread _ => none
  | .buswrite _ _ => none

/-- No reset in the cycles the host will present. -/
abbrev NoReset (cs : List PortCycle) : Prop := ∀ c ∈ cs, c.rst = false

/-- A cycle in which the host reads STATUS (R62, step 3). -/
def statusPoll : PortCycle := ⟨false, true, false, regIndex .status, 0#32⟩

/-- A cycle in which the host writes `v` to the word index `idx`. -/
def writeCycle (idx : BitVec 3) (v : Word) : PortCycle := ⟨false, true, true, idx, v⟩

/-- Two port cycles that differ at most in the data written to KEY or DIN. -/
abbrev SameButOperands (c d : PortCycle) : Prop :=
  c.rst = d.rst ∧ c.sel = d.sel ∧ c.we = d.we ∧ c.addr = d.addr ∧
    (c.wdata = d.wdata ∨ c.addr = regIndex .key ∨ c.addr = regIndex .din)

/-- Two states that agree in everything but the data registers KEY, DIN, DOUT and ST, the value last read, and the data the host
will write to KEY or DIN. -/
abbrev SameControl (s t : State) : Prop :=
  s.ie = t.ie ∧ s.busy = t.busy ∧ s.done = t.done ∧ s.errCmd = t.errCmd ∧ s.errBusy = t.errBusy ∧
    s.rcnt = t.rcnt ∧ s.opc = t.opc ∧ s.rsel = t.rsel ∧ List.Forall₂ SameButOperands s.inputs t.inputs

/-- The cycle writes the register at word index `idx` (R51). -/
abbrev Writes (c : PortCycle) (idx : BitVec 3) : Prop := c.sel = true ∧ c.we = true ∧ c.addr = idx

/-- The cycle only reads, or presents nothing (R51). -/
abbrev ReadsOnly (c : PortCycle) : Prop := c.rst = false ∧ (c.sel = true → c.we = false)

/-- The cycle writes a legal command word to CMD while the core is idle, so that a command is accepted (R120). -/
abbrev Accepts (s : State) (c : PortCycle) : Prop :=
  s.busy = false ∧ Writes c (regIndex .cmd) ∧ legal c.wdata = true

/-- The registers right after a command with these OP and RND fields is accepted and does not load ST (R121). -/
def accepted (s : State) (op : BitVec 4) (rnd : BitVec 3) : State :=
  { s with done := false, busy := true, opc := op, rsel := rnd, rcnt := 0#3 }

/-- From `t`, with a command in progress, the very next clock edge completes it with `out` in DOUT, whatever access the host presents
in that cycle: BUSY falls, DONE is 1, RCNT is 0, and ST, KEY, DIN, OPC and RSEL keep their values (R122, R123, R177). -/
def CompletesAtNextEdge (T : CipherTables) (t : State) (out : Block) : Prop :=
  ∀ (c : PortCycle) (rest : List PortCycle), c.rst = false →
    ∃ u, stepWith T { t with inputs := c :: rest } = .next u ∧
      u.dout = out ∧ u.busy = false ∧ u.done = true ∧ u.rcnt = 0#3 ∧
      u.st = t.st ∧ u.key = t.key ∧ u.din = t.din ∧ u.opc = t.opc ∧ u.rsel = t.rsel ∧ u.inputs = rest

end Sys2Proof.Machine
end

