-- ==== Sys2Proof/Certificates/Slice0/Obligations.lean ====
section
/-!
DEFINITION. The statements for the provers. Each docstring says which rule of spec/ it formalises. `T` ranges over ALL pairs of tables
(R9, R10): a statement for every `T` holds for the machine's own step, which is `stepWith Config.tables`.
-/
open Sys2Proof Sys2Proof.Machine

/-! ### Reset -/

/-- R37: the reset value of every piece of state, with what BUSREAD of ID returns and the irq output. -/
def Obligations.ResetGivesEveryRegisterItsValue : Prop :=
  State.reset.ie = false ∧ State.reset.busy = false ∧ State.reset.done = false ∧ State.reset.errCmd = false ∧
    State.reset.errBusy = false ∧ State.reset.rcnt = 0#3 ∧ State.reset.key = 0x00000000#32 ∧ State.reset.din = 0x0000#16 ∧
    State.reset.dout = 0x0000#16 ∧ State.reset.st = 0x0000#16 ∧ State.reset.opc = 0x0#4 ∧ State.reset.rsel = 0#3 ∧
    busReadValue 6#3 State.reset = 0x01201004#32 ∧ irq State.reset = false

/-- R170, R171: an edge with `rst` = 1 gives every register its reset value whatever else the cycle holds, also in mid-command; `rdata`
is 0 and irq is 0. The port's later cycles are untouched. -/
def Obligations.ResetEdgeTakesPrecedence : Prop :=
  ∀ (T : CipherTables) (s : State) (c : PortCycle) (rest : List PortCycle), c.rst = true →
    ∃ t, stepWith T { s with inputs := c :: rest } = .next t ∧ irq t = false ∧
      t = { ie := false, busy := false, done := false, errCmd := false, errBusy := false, rcnt := 0#3, key := 0x00000000#32,
            din := 0x0000#16, dout := 0x0000#16, st := 0x0000#16, opc := 0x0#4, rsel := 0#3, rdata := some 0x00000000#32,
            inputs := rest }

/-! ### Encoding -/

/-- R74, R80: words written out from the encodings decode to the instructions they stand for, and reserved ones are rejected
(the bytes' order and length are the model's choice, log 8). -/
def Obligations.SpelledOutWordsDecode : Prop :=
  decode [0x00#8, 0x00#8, 0x00#8, 0x00#8] = .ok .nop ∧
    decode [0x01#8, 0x00#8, 0x00#8, 0x00#8] = .ok .enc ∧
    decode [0x52#8, 0x00#8, 0x00#8, 0x00#8] = .ok (.rkey 5#3) ∧
    decode [0x13#8, 0x00#8, 0x00#8, 0x00#8] = .ok (.kxor 1#3) ∧
    decode [0x07#8, 0x00#8, 0x00#8, 0x00#8] = .ok .iperm ∧
    decode [0x05#8] = .ok (.busread 5#3) ∧
    decode [0xEF#8, 0xBE#8, 0xAD#8, 0xDE#8, 0x0C#8] = .ok (.buswrite 4#3 0xDEADBEEF#32) ∧
    decode [0x08#8, 0x00#8, 0x00#8, 0x00#8] = .error (.reservedOpcode 0x8#4) ∧
    decode [0x62#8, 0x00#8, 0x00#8, 0x00#8] = .error (.roundNotAllowed 6#3) ∧
    decode [0x80#8, 0x00#8, 0x00#8, 0x00#8] = .error .reservedBitsSet

/-- R74: the predicate as the rule writes it, and that exactly these 16 of the 2^32 command words are legal, each being the command
listed with it. -/
def Obligations.LegalWordsAreTheSixteenListed : Prop :=
  ∀ v : Word,
    (legal v = true ↔
      v.extractLsb' 7 25 = 0#25 ∧
        ((v.extractLsb' 0 4 ∈ [0x0#4, 0x1#4, 0x4#4, 0x5#4, 0x6#4, 0x7#4] ∧ v.extractLsb' 4 3 = 0#3) ∨
          (v.extractLsb' 0 4 ∈ [0x2#4, 0x3#4] ∧ 1 ≤ (v.extractLsb' 4 3).toNat ∧ (v.extractLsb' 4 3).toNat ≤ 5))) ∧
    (legal v = true ↔ ∃ i, decodeCommand v = .ok i ∧
      (v, i) ∈ [(0x00000000#32, .nop), (0x00000001#32, .enc), (0x00000012#32, .rkey 1#3), (0x00000022#32, .rkey 2#3),
        (0x00000032#32, .rkey 3#3), (0x00000042#32, .rkey 4#3), (0x00000052#32, .rkey 5#3), (0x00000013#32, .kxor 1#3),
        (0x00000023#32, .kxor 2#3), (0x00000033#32, .kxor 3#3), (0x00000043#32, .kxor 4#3), (0x00000053#32, .kxor 5#3),
        (0x00000004#32, .sub), (0x00000005#32, .isub), (0x00000006#32, .perm), (0x00000007#32, Instr.iperm)])

/-- R74, R76, R77: the decoder of command words accepts exactly the legal ones, and what it reads is the command whose word it is. -/
def Obligations.CommandDecodesExactlyWhenLegal : Prop :=
  ∀ v : Word, (legal v = true ↔ ∃ i, decodeCommand v = .ok i) ∧
    ∀ i, decodeCommand v = .ok i → commandWord i = some v

/-- R71, R77, R80: decoding the encoding of any well-formed instruction, with every operand value, gives it back (bytes: log 8). -/
def Obligations.DecodeOfEncode : Prop :=
  ∀ i : Instr, i.wellFormed = true → decode (encode i) = .ok i

/-- R74, R75, R80: whatever bytes the decoder accepts are the one encoding of a well-formed instruction (bytes: log 8). -/
def Obligations.EncodeOfDecode : Prop :=
  ∀ (bs : List Byte) (i : Instr), decode bs = .ok i → i.wellFormed = true ∧ encode i = bs

/-- R78: a command mnemonic stands for the write of its word to CMD. -/
def Obligations.MnemonicStandsForCmdWrite : Prop :=
  ∀ (i : Instr) (v : Word) (s : State), commandWord i = some v → exec i s = exec (.buswrite 2#3 v) s

/-! ### The step -/

/-- R55, R75, R76, R120, R177: the instruction a cycle presents is the one its bytes decode to, and where they do not decode the cycle
writes an illegal word to CMD and presents that BUSWRITE (log 10). While idle the step is exec of that instruction on the state the
cycle opens with; while a command is in progress the core step of that same state is merged into it, and a stuck core step stops the
step. With no access there is only the core step. That one step is one clock cycle is the model's choice (log 5). -/
def Obligations.StepRunsTheDecodedInstruction : Prop :=
  ∀ s : State, (nextCycle s).rst = false →
    ((nextCycle s).sel = true →
      (∃ i, decode (fetchBytes (nextCycle s)) = .ok i) ∨
        (Writes (nextCycle s) 2#3 ∧ legal (nextCycle s).wdata = false)) ∧
    (∀ i, (nextCycle s).sel = true →
      decode (fetchBytes (nextCycle s)) = .ok i ∨
        (Writes (nextCycle s) 2#3 ∧ legal (nextCycle s).wdata = false ∧ i = .buswrite 2#3 (nextCycle s).wdata) →
      (s.busy = false → step s = exec i (openCycle s)) ∧
      (s.busy = true → ∀ acc core, exec i (openCycle s) = .next acc → coreStep Config.tables (openCycle s) = .next core →
        step s = .next (mergeEdge (openCycle s) acc core)) ∧
      (s.busy = true → ∀ e, coreStep Config.tables (openCycle s) = .fault e → step s = .fault e)) ∧
    ((nextCycle s).sel = false → step s = coreStep Config.tables (openCycle s))

/-- R70, R76, R80: an opcode-table word the decoder reads runs in the very next cycle, as the instruction it reads
(where the host's cycles stand is the model's choice, log 6, and so is the table word's byte form, log 8). -/
def Obligations.WithFetchWordRunsTheTableInstruction : Prop :=
  ∀ (s : State) (nbits w : Nat) (i : Instr), decodeTableWord nbits w = some i → s.busy = false →
    step (s.withFetchWord nbits w) = exec i { s with rdata := none }

/-- R35: the five invariants hold at reset. -/
def Obligations.InvHoldsAtReset : Prop := StateInv State.reset

/-- R35: every step keeps the five invariants, from any state that has them. -/
def Obligations.StepKeepsInv : Prop :=
  ∀ s t : State, StateInv s → step s = .next t → StateInv t

/-- R116, R150, U7: from a state with the invariants no step faults or is refused. -/
def Obligations.NoStopFromInv : Prop :=
  ∀ s : State, StateInv s → ∃ t, step s = .next t

/-- U7: a core step from RCNT in 5..7, from OPC in 0x8..0xF and from RSEL out of range for OPC is stuck; it computes no result. The
fourth clause, ENC with RCNT = 0, is no case of U7: R35 rules it out, and that the core step is stuck there is the model's choice
(log 11), as are the faults' names and which comes first. The remaining case that R35 rules out, OPC other than ENC with RCNT in 1..4,
is not stuck: R123 completes it (log 11). -/
def Obligations.StuckCoreStepsOfUnreachableLatches : Prop :=
  ∀ (T : CipherTables) (s : State), s.busy = true →
    (5 ≤ s.rcnt.toNat → coreStep T s = .fault .stuckRoundCounter) ∧
    (s.rcnt.toNat ≤ 4 → 8 ≤ s.opc.toNat → coreStep T s = .fault .stuckOpcode) ∧
    (s.rcnt.toNat ≤ 4 → s.opc.toNat ≤ 7 → ¬ SelectLegal s → coreStep T s = .fault .stuckRoundSelect) ∧
    (s.rcnt = 0#3 → s.opc = Opcode.enc.toBits → s.rsel = 0#3 → coreStep T s = .fault .stuckRoundCounter)

/-- R61, R177: every clock cycle is one of the interleavings of atomic moves: the access first, then the core step. The equality is of
whole states: that `rdata` too agrees in a busy cycle that reads rests on the model's choice that a core move keeps it (log 18). -/
def Obligations.CycleIsAnInterleaving : Prop :=
  ∀ (T : CipherTables) (s : State),
    stepWith T s = runMoves T (cycleMoves (nextCycle s) s) (openCycle s)

/-! ### Commands: acceptance -/

/-- R120, R121: a write to CMD while busy only sets ERR_BUSY, an illegal word while idle only sets ERR_CMD, and a legal word while
idle is accepted. -/
def Obligations.CmdWriteChecksBusyThenLegality : Prop :=
  ∀ (v : Word) (s : State),
    (s.busy = true → exec (.buswrite 2#3 v) s = .next { s with errBusy := true }) ∧
    (s.busy = false → legal v = false → exec (.buswrite 2#3 v) s = .next { s with errCmd := true }) ∧
    (s.busy = false → legal v = true → v.extractLsb' 0 4 = 0x1#4 →
      exec (.buswrite 2#3 v) s = .next { s with
        done := false, busy := true, opc := v.extractLsb' 0 4, rsel := v.extractLsb' 4 3, st := s.din, rcnt := 1#3 }) ∧
    (s.busy = false → legal v = true → v.extractLsb' 0 4 ≠ 0x1#4 →
      exec (.buswrite 2#3 v) s = .next { s with
        done := false, busy := true, opc := v.extractLsb' 0 4, rsel := v.extractLsb' 4 3, rcnt := 0#3 })

/-- R120, R152: every command mnemonic written while busy is turned away with ERR_BUSY set and nothing else changed. -/
def Obligations.BusyCommandOnlySetsErrBusy : Prop :=
  ∀ (i : Instr) (v : Word) (s : State), commandWord i = some v → s.busy = true →
    exec i s = .next { s with errBusy := true }

/-! ### Commands: result. Each says that exec accepts the command, with the whole next state, and that the next edge completes it. -/

/-- R121, R123, R124: NOP. -/
def Obligations.NopCompletesWithDoutUnchanged : Prop :=
  ∀ (T : CipherTables) (s : State), s.busy = false →
    exec .nop s = .next (accepted s 0x0#4 0#3) ∧ CompletesAtNextEdge T (accepted s 0x0#4 0#3) s.dout

/-- R121, R123, R125: RKEY r, for r in 1..5. -/
def Obligations.RkeyWritesTheRoundKey : Prop :=
  ∀ (T : CipherTables) (s : State) (r : BitVec 3) (n : RoundIndex), s.busy = false → r.toNat = roundNumber n →
    exec (.rkey r) s = .next (accepted s 0x2#4 r) ∧ CompletesAtNextEdge T (accepted s 0x2#4 r) (roundKey s.key n)

/-- R121, R123, R126: KXOR r, for r in 1..5. -/
def Obligations.KxorWritesDinXorRoundKey : Prop :=
  ∀ (T : CipherTables) (s : State) (r : BitVec 3) (n : RoundIndex), s.busy = false → r.toNat = roundNumber n →
    exec (.kxor r) s = .next (accepted s 0x3#4 r) ∧
      CompletesAtNextEdge T (accepted s 0x3#4 r) (s.din ^^^ roundKey s.key n)

/-- R72, R75, R120, R151: RKEY and KXOR with r outside 1..5 only set ERR_CMD when written while idle, and only ERR_BUSY while busy. -/
def Obligations.RoundOutsideOneToFiveSetsErrCmd : Prop :=
  ∀ (s : State) (r : BitVec 3), roundFieldLegal r = false →
    (s.busy = false → exec (.rkey r) s = .next { s with errCmd := true } ∧ exec (.kxor r) s = .next { s with errCmd := true }) ∧
    (s.busy = true → exec (.rkey r) s = .next { s with errBusy := true } ∧ exec (.kxor r) s = .next { s with errBusy := true })

/-- R121, R123, R127: SUB. -/
def Obligations.SubWritesSubstituteOfDin : Prop :=
  ∀ (T : CipherTables) (s : State), s.busy = false →
    exec .sub s = .next (accepted s 0x4#4 0#3) ∧ CompletesAtNextEdge T (accepted s 0x4#4 0#3) (substitute T s.din)

/-- R121, R123, R128: ISUB. -/
def Obligations.IsubWritesInvSubstituteOfDin : Prop :=
  ∀ (T : CipherTables) (s : State), s.busy = false →
    exec .isub s = .next (accepted s 0x5#4 0#3) ∧ CompletesAtNextEdge T (accepted s 0x5#4 0#3) (invSubstitute T s.din)

/-- R121, R123, R129: PERM. -/
def Obligations.PermWritesPermuteOfDin : Prop :=
  ∀ (T : CipherTables) (s : State), s.busy = false →
    exec .perm s = .next (accepted s 0x6#4 0#3) ∧ CompletesAtNextEdge T (accepted s 0x6#4 0#3) (permute T s.din)

/-- R121, R123, R130: IPERM. -/
def Obligations.IpermWritesInvPermuteOfDin : Prop :=
  ∀ (T : CipherTables) (s : State), s.busy = false →
    exec .iperm s = .next (accepted s 0x7#4 0#3) ∧ CompletesAtNextEdge T (accepted s 0x7#4 0#3) (invPermute T s.din)

/-- R140, R142, R144, R146: ENC is accepted, RCNT counts 1, 2, 3, 4 over the next edges with BUSY = 1, and the fourth edge leaves
Encrypt(KEY, DIN) in DOUT and ST, whatever accesses the host presents in those cycles. -/
def Obligations.EncEncryptsInFourEdges : Prop :=
  ∀ (T : CipherTables) (s : State), s.busy = false →
    exec .enc s = .next { accepted s 0x1#4 0#3 with st := s.din, rcnt := 1#3 } ∧
    ∀ cs rest : List PortCycle, cs.length = 4 → NoReset cs →
      (∀ n, n < 4 → ∃ u,
        runWith T n { accepted s 0x1#4 0#3 with st := s.din, rcnt := 1#3, inputs := cs ++ rest } = .next u ∧
          u.busy = true ∧ u.rcnt = BitVec.ofNat 3 (n + 1) ∧ u.dout = s.dout ∧ u.key = s.key ∧ u.din = s.din) ∧
      ∃ u, runWith T 4 { accepted s 0x1#4 0#3 with st := s.din, rcnt := 1#3, inputs := cs ++ rest } = .next u ∧
        u.dout = encrypt T s.key s.din ∧ u.st = encrypt T s.key s.din ∧ u.busy = false ∧ u.done = true ∧ u.rcnt = 0#3 ∧
        u.key = s.key ∧ u.din = s.din ∧ u.opc = 0x1#4 ∧ u.rsel = 0#3 ∧ u.inputs = rest

/-- R122, R131: under ANY interleaving of host accesses with exactly its LAT core steps, a command accepted while idle leaves in DOUT
its function of the KEY and DIN held when it was accepted. -/
def Obligations.ResultIsOfTheOperandsAtAcceptance : Prop :=
  ∀ (T : CipherTables) (op : Opcode) (r : BitVec 3) (i : Instr) (y : Block) (s : State) (ms : List Move),
    commandOf op r = some i → commandResult T i s = some y → s.busy = false →
    Move.reset ∉ ms → ms.count Move.core = latency op →
      ∃ t, runMoves T (Move.access i :: ms) s = .next t ∧ t.dout = y

/-! ### Core steps -/

/-- R123: the completing core step of every command other than ENC. -/
def Obligations.CoreStepCompletesSingleLayerCommand : Prop :=
  ∀ (T : CipherTables) (s : State), StateInv s → s.busy = true → s.opc ≠ 0x1#4 →
    ∃ out, coreStep T s = .next { s with dout := out, busy := false, done := true, rcnt := 0#3 } ∧
      (s.opc = 0x0#4 → out = s.dout) ∧
      (s.opc = 0x2#4 → ∀ n, s.rsel.toNat = roundNumber n → out = roundKey s.key n) ∧
      (s.opc = 0x3#4 → ∀ n, s.rsel.toNat = roundNumber n → out = keyMix s.din s.key n) ∧
      (s.opc = 0x4#4 → out = substitute T s.din) ∧
      (s.opc = 0x5#4 → out = invSubstitute T s.din) ∧
      (s.opc = 0x6#4 → out = permute T s.din) ∧
      (s.opc = 0x7#4 → out = invPermute T s.din)

/-- R141, R143, R146: ENC's core step of round r in 1..3 changes only ST and RCNT; the step of round 4 completes the command. -/
def Obligations.CoreStepOfEncIsOneRound : Prop :=
  ∀ (T : CipherTables) (s : State) (n : RoundIndex), StateInv s → s.busy = true → s.opc = 0x1#4 → s.rcnt.toNat = roundNumber n →
    (roundNumber n ≤ 3 →
      coreStep T s = .next { s with
        st := permute T (substitute T (s.st ^^^ roundKey s.key n)), rcnt := s.rcnt + 1#3 }) ∧
    (roundNumber n = 4 →
      coreStep T s = .next { s with
        st := substitute T (s.st ^^^ roundKey s.key .four) ^^^ roundKey s.key .five
        dout := substitute T (s.st ^^^ roundKey s.key .four) ^^^ roundKey s.key .five
        rcnt := 0#3, busy := false, done := true })

/-- R122, R147, R179: a command in progress is busy for exactly the core steps it has left, one a clock edge, and then it has ended,
whatever accesses the host presents, as long as reset stays deasserted. -/
def Obligations.CommandEndsAfterItsStepsLeft : Prop :=
  ∀ (T : CipherTables) (s : State), StateInv s → s.busy = true → NoReset (s.inputs.take (stepsLeft s)) →
    (∀ n, n < stepsLeft s → ∃ u, runWith T n s = .next u ∧ u.busy = true) ∧
    ∃ u, runWith T (stepsLeft s) s = .next u ∧ u.busy = false ∧ u.done = true ∧ u.rcnt = 0#3

/-! ### Host accesses -/

/-- R54: BUSREAD of every word index: the value on `rdata`, and no register changed. -/
def Obligations.BusreadReturnsTheRegister : Prop :=
  ∀ s : State,
    exec (.busread 0#3) s = .next { s with rdata := some ((BitVec.ofBool s.ie).setWidth 32) } ∧
    exec (.busread 1#3) s =
      .next { s with
        rdata := some ((s.rcnt ++ BitVec.ofBool s.errBusy ++ BitVec.ofBool s.errCmd ++ BitVec.ofBool s.done
          ++ BitVec.ofBool s.busy).setWidth 32) } ∧
    exec (.busread 2#3) s = .next { s with rdata := some 0x00000000#32 } ∧
    exec (.busread 3#3) s = .next { s with rdata := some s.key } ∧
    exec (.busread 4#3) s = .next { s with rdata := some (s.din.setWidth 32) } ∧
    exec (.busread 5#3) s = .next { s with rdata := some (s.dout.setWidth 32) } ∧
    exec (.busread 6#3) s = .next { s with rdata := some 0x01201004#32 } ∧
    exec (.busread 7#3) s = .next { s with rdata := some 0x00000000#32 }

/-- R24, R54: where each field of STATUS stands. -/
def Obligations.StatusFieldsStandWhereTheTablePutsThem : Prop :=
  ∀ s : State,
    (statusWord s).getLsbD 0 = s.busy ∧ (statusWord s).getLsbD 1 = s.done ∧ (statusWord s).getLsbD 2 = s.errCmd ∧
    (statusWord s).getLsbD 3 = s.errBusy ∧ (statusWord s).extractLsb' 4 3 = s.rcnt ∧
    (statusWord s).extractLsb' 7 25 = 0#25

/-- R25, R55, R152, R154: BUSWRITE of every word index, with everything it leaves unchanged; a write of CMD is Command(v), whose effect
`CmdWriteChecksBusyThenLegality` states. -/
def Obligations.BuswriteWritesTheRegister : Prop :=
  ∀ (v : Word) (s : State),
    exec (.buswrite 0#3 v) s = .next { s with ie := v.getLsbD 0 } ∧
    exec (.buswrite 1#3 v) s = .next { s with
      done := if v.getLsbD 1 then false else s.done
      errCmd := if v.getLsbD 2 then false else s.errCmd
      errBusy := if v.getLsbD 3 then false else s.errBusy } ∧
    exec (.buswrite 2#3 v) s = .next (command v s) ∧
    (s.busy = false → exec (.buswrite 3#3 v) s = .next { s with key := v }) ∧
    (s.busy = false → exec (.buswrite 4#3 v) s = .next { s with din := v.extractLsb' 0 16 }) ∧
    (s.busy = true → exec (.buswrite 3#3 v) s = .next { s with errBusy := true }) ∧
    (s.busy = true → exec (.buswrite 4#3 v) s = .next { s with errBusy := true }) ∧
    exec (.buswrite 5#3 v) s = .next s ∧ exec (.buswrite 6#3 v) s = .next s ∧ exec (.buswrite 7#3 v) s = .next s

/-- R58: which accesses are idempotent: reads, CTRL, KEY and DIN writes while idle, STATUS writes. A second write of a legal word to
CMD is dropped and raises ERR_BUSY, and a KEY or DIN write while busy is no no-op. -/
def Obligations.WritesAreIdempotentButForCmd : Prop :=
  ∀ (v : Word) (s t : State),
    (∀ idx, exec (.busread idx) s = .next t →
      t = { s with rdata := t.rdata } ∧ exec (.busread idx) t = .next t) ∧
    (exec (.buswrite 0#3 v) s = .next t → exec (.buswrite 0#3 v) t = .next t) ∧
    (exec (.buswrite 1#3 v) s = .next t → exec (.buswrite 1#3 v) t = .next t) ∧
    (s.busy = false → exec (.buswrite 3#3 v) s = .next t → exec (.buswrite 3#3 v) t = .next t) ∧
    (s.busy = false → exec (.buswrite 4#3 v) s = .next t → exec (.buswrite 4#3 v) t = .next t) ∧
    (s.busy = false → legal v = true → exec (.buswrite 2#3 v) s = .next t →
      t.busy = true ∧ exec (.buswrite 2#3 v) t = .next { t with errBusy := true }) ∧
    (s.busy = true → exec (.buswrite 3#3 v) s = .next t → t.errBusy = true) ∧
    (s.busy = true → exec (.buswrite 4#3 v) s = .next t → t.errBusy = true)

/-- R51, R53, R177: `rdata` after a cycle: the register as it was before the edge, in a cycle that reads; not valid after any other
cycle without reset (`none`: log 7). -/
def Obligations.RdataShowsTheRegisterBeforeTheEdge : Prop :=
  ∀ (T : CipherTables) (s t : State), (nextCycle s).rst = false → stepWith T s = .next t →
    ((nextCycle s).sel = true → (nextCycle s).we = false →
      t.rdata = some (busReadValue (nextCycle s).addr s)) ∧
    (((nextCycle s).sel = true → (nextCycle s).we = true) → t.rdata = none)

/-- R156: irq is the enable bit and any of STATUS bits 3:1 as the host reads them. -/
def Obligations.IrqIsEnableAndAPendingStatusBit : Prop :=
  ∀ s : State, irq s = true ↔
    busReadValue 0#3 s = 1#32 ∧ (busReadValue 1#3 s).extractLsb' 1 3 ≠ 0#3

/-- R52: a byte-addressed bridge presents word index `idx` for exactly the byte address 4·idx above the base, and refuses every other
address. -/
def Obligations.BridgeTakesExactlyTheWordOffsets : Prop :=
  ∀ (base a : Nat) (idx : BitVec 3),
    wordIndexOfByteAddress base a = some idx ↔ a = base + 4 * idx.toNat

/-! ### What can change a register, over every cycle and every access -/

/-- R27, R28, R55: KEY and DIN change only at a reset edge or by a write to them while idle, which stores the data. -/
def Obligations.KeyAndDinChangeOnlyByIdleWrites : Prop :=
  ∀ (T : CipherTables) (s t : State), stepWith T s = .next t → (nextCycle s).rst = false →
    (s.busy = false → Writes (nextCycle s) 3#3 → t.key = (nextCycle s).wdata) ∧
    (s.busy = true ∨ ¬ Writes (nextCycle s) 3#3 → t.key = s.key) ∧
    (s.busy = false → Writes (nextCycle s) 4#3 → t.din = (nextCycle s).wdata.extractLsb' 0 16) ∧
    (s.busy = true ∨ ¬ Writes (nextCycle s) 4#3 → t.din = s.din)

/-- R30: without reset, DOUT changes only at the edge at which a command in progress completes. -/
def Obligations.DoutChangesOnlyAtCompletion : Prop :=
  ∀ (T : CipherTables) (s t : State), stepWith T s = .next t → (nextCycle s).rst = false → t.dout ≠ s.dout →
    s.busy = true ∧ t.busy = false ∧ t.done = true

/-- R32, R121, R141, R143: without reset, ST changes only when ENC is accepted, and then it takes DIN, or at a core step of ENC. -/
def Obligations.StChangesOnlyForEnc : Prop :=
  ∀ (T : CipherTables) (s t : State), stepWith T s = .next t → (nextCycle s).rst = false → t.st ≠ s.st →
    (s.busy = true ∧ s.opc = 0x1#4) ∨ (Accepts s (nextCycle s) ∧ (nextCycle s).wdata = 0x00000001#32 ∧ t.st = s.din)

/-- R33, R121: without reset, OPC and RSEL take the fields of a command word when it is accepted, and keep their values otherwise. -/
def Obligations.LatchesChangeOnlyOnAcceptance : Prop :=
  ∀ (T : CipherTables) (s t : State), stepWith T s = .next t → (nextCycle s).rst = false →
    (Accepts s (nextCycle s) →
      t.opc = (nextCycle s).wdata.extractLsb' 0 4 ∧ t.rsel = (nextCycle s).wdata.extractLsb' 4 3) ∧
    (¬ Accepts s (nextCycle s) → t.opc = s.opc ∧ t.rsel = s.rsel)

/-- R23: without reset, IE takes bit 0 of a CTRL write, also while busy, and keeps its value otherwise. -/
def Obligations.IeFollowsCtrlWrites : Prop :=
  ∀ (T : CipherTables) (s t : State), stepWith T s = .next t → (nextCycle s).rst = false →
    (Writes (nextCycle s) 0#3 → t.ie = (nextCycle s).wdata.getLsbD 0) ∧
    (¬ Writes (nextCycle s) 0#3 → t.ie = s.ie)

/-- R24, R151, R152, R153, R155: the error bits are sticky: without reset, ERR_CMD is 1 after a cycle exactly if the cycle wrote an
illegal word to CMD while idle, or it was 1 and the cycle did not clear it; ERR_BUSY the same for a write to CMD, KEY or DIN while
busy. -/
def Obligations.ErrorBitsAreSetByTheirCauseAndSticky : Prop :=
  ∀ (T : CipherTables) (s t : State), stepWith T s = .next t → (nextCycle s).rst = false →
    (t.errCmd = true ↔
      (s.busy = false ∧ Writes (nextCycle s) 2#3 ∧ legal (nextCycle s).wdata = false) ∨
      (s.errCmd = true ∧ ¬ (Writes (nextCycle s) 1#3 ∧ (nextCycle s).wdata.getLsbD 2 = true))) ∧
    (t.errBusy = true ↔
      (s.busy = true ∧
        (Writes (nextCycle s) 2#3 ∨ Writes (nextCycle s) 3#3 ∨ Writes (nextCycle s) 4#3)) ∨
      (s.errBusy = true ∧ ¬ (Writes (nextCycle s) 1#3 ∧ (nextCycle s).wdata.getLsbD 3 = true)))

/-- R24, R25, R121, R177: without reset, DONE is 1 after a cycle exactly if the cycle completed a command (a STATUS write in that cycle
does not clear it), or it was 1 and the cycle neither cleared it nor accepted a command. -/
def Obligations.DoneIsSetByCompletionAndTheSetWins : Prop :=
  ∀ (T : CipherTables) (s t : State), stepWith T s = .next t → (nextCycle s).rst = false →
    (t.done = true ↔
      (s.busy = true ∧ t.busy = false) ∨
      (s.done = true ∧ ¬ (Writes (nextCycle s) 1#3 ∧ (nextCycle s).wdata.getLsbD 1 = true) ∧
        ¬ Accepts s (nextCycle s)))

/-- R24, R121, R122: without reset, BUSY is 1 after a cycle exactly if the cycle accepted a command, or a command was in progress with
more than one core step left. -/
def Obligations.BusyIsSetByAcceptanceAndHeldByStepsLeft : Prop :=
  ∀ (T : CipherTables) (s t : State), StateInv s → stepWith T s = .next t → (nextCycle s).rst = false →
    (t.busy = true ↔ Accepts s (nextCycle s) ∨ 1 < stepsLeft s)

/-- R62, R175: the completion protocol. With both error bits 0 before the CMD write, if after that write and any cycles that only read
BUSY is 0 and both error bits are still 0, then the word was a legal command and a read of DOUT returns that command's result. -/
def Obligations.CompletionProtocolGivesTheResult : Prop :=
  ∀ (T : CipherTables) (s u : State) (v : Word) (cs : List PortCycle), StateInv s → s.errCmd = false → s.errBusy = false →
    (∀ c ∈ cs, ReadsOnly c) →
    runWith T (cs.length + 1) { s with inputs := writeCycle 2#3 v :: cs } = .next u →
    u.busy = false → u.errCmd = false → u.errBusy = false →
      ∃ i y, decodeCommand v = .ok i ∧ commandResult T i s = some y ∧ busReadValue 5#3 u = y.setWidth 32

/-- R146: no data value alters the sequence. Two machines, even with different tables, that agree in all control state and differ only
in KEY, DIN, DOUT, ST and the data written to KEY and DIN stay so at every step: same BUSY, DONE, errors, RCNT, latches and irq. -/
def Obligations.ControlIsIndependentOfData : Prop :=
  ∀ (T T' : CipherTables) (s t s' : State), SameControl s t → stepWith T s = .next s' →
    ∃ t', stepWith T' t = .next t' ∧ SameControl s' t' ∧ irq s' = irq t'

/-! ### The datapath -/

/-- R100: round key r is the upper half of K shifted left by 4(r-1), which is the 16-bit window K[35-4r : 20-4r]; the first is the high half of the key and the fifth the low half. -/
def Obligations.RoundKeyIsAKeyWindow : Prop :=
  ∀ (k : Word) (r : RoundIndex),
    roundKey k r = (k <<< (4 * (roundNumber r - 1))).extractLsb' 16 16 ∧
      roundKey k r = k.extractLsb' (20 - 4 * roundNumber r) 16 ∧
      roundKey k .one = k.extractLsb' 16 16 ∧ roundKey k .five = k.extractLsb' 0 16

/-- R101, C1, C3: adjacent round keys share 12 bits, for r = 1..4. -/
def Obligations.AdjacentRoundKeysShareTwelveBits : Prop :=
  ∀ (k : Word) (r r' : RoundIndex), roundNumber r' = roundNumber r + 1 →
    (roundKey k r).extractLsb' 0 12 = (roundKey k r').extractLsb' 4 12

/-- R102: key mixing is XOR with the round key; with key 0 it is the identity, and mixing twice with one round key gives the state back. -/
def Obligations.KeyMixIsAnInvolution : Prop :=
  ∀ (s : Block) (k : Word) (r : RoundIndex),
    keyMix s k r = s ^^^ roundKey k r ∧ keyMix s 0#32 r = s ∧ keyMix (keyMix s k r) k r = s

/-- R104, R106, R114: each lane of Substitute and InvSubstitute is the table applied to that lane alone. -/
def Obligations.SubstituteWorksOnEachLaneAlone : Prop :=
  ∀ (T : CipherTables) (w : Block),
    (nibble1 (substitute T w)).toFin = T.sbox (nibble1 w).toFin ∧ (nibble2 (substitute T w)).toFin = T.sbox (nibble2 w).toFin ∧
    (nibble3 (substitute T w)).toFin = T.sbox (nibble3 w).toFin ∧ (nibble4 (substitute T w)).toFin = T.sbox (nibble4 w).toFin ∧
    (nibble1 (invSubstitute T w)).toFin = T.sbox.symm (nibble1 w).toFin ∧
    (nibble2 (invSubstitute T w)).toFin = T.sbox.symm (nibble2 w).toFin ∧
    (nibble3 (invSubstitute T w)).toFin = T.sbox.symm (nibble3 w).toFin ∧
    (nibble4 (invSubstitute T w)).toFin = T.sbox.symm (nibble4 w).toFin

/-- R108, R109, C2: input MSB position p moves to output position PBOX(p), and InvPermute is the other direction. -/
def Obligations.PermuteMovesEachBitByTheTable : Prop :=
  ∀ (T : CipherTables) (w : Block) (p : Fin 16),
    (permute T w).getLsbD (15 - (T.pbox p).val) = w.getLsbD (15 - p.val) ∧
    (invPermute T w).getLsbD (15 - p.val) = w.getLsbD (15 - (T.pbox p).val)

/-- R108: Permute keeps the number of 1 bits, and 0x0000 and 0xFFFF are fixed for every table. -/
def Obligations.PermuteKeepsTheNumberOfOnes : Prop :=
  ∀ (T : CipherTables) (w : Block),
    (Finset.univ.filter fun p : Fin 16 => msbBit (permute T w) p = true).card =
      (Finset.univ.filter fun p : Fin 16 => msbBit w p = true).card ∧
    permute T 0x0000#16 = 0x0000#16 ∧ permute T 0xFFFF#16 = 0xFFFF#16

/-- R112: the inverse laws, for every pair of tables and every Block. -/
def Obligations.InverseLayersUndoTheLayers : Prop :=
  ∀ (T : CipherTables) (w : Block),
    invSubstitute T (substitute T w) = w ∧ substitute T (invSubstitute T w) = w ∧
    invPermute T (permute T w) = w ∧ permute T (invPermute T w) = w

/-- R111: with K = 0 every key mixing is the identity and Encrypt is the unkeyed composition of the layers. -/
def Obligations.EncryptUnderKeyZero : Prop :=
  ∀ (T : CipherTables) (x : Block),
    encrypt T 0#32 x =
      substitute T (permute T (substitute T (permute T (substitute T (permute T (substitute T x))))))

/-- R117: for every fixed key, and every pair of tables, Encrypt is a bijection on Blocks, as are KeyMix, Substitute and Permute. -/
def Obligations.EncryptIsABijection : Prop :=
  ∀ (T : CipherTables) (k : Word),
    Function.Bijective (encrypt T k) ∧ (∀ r, Function.Bijective fun x => keyMix x k r) ∧ Function.Bijective (substitute T) ∧
      Function.Bijective (permute T)

/-- R118, for the DEFAULT permutation table, which is general knowledge and not the source's (log 4): it is its own inverse, and
reversing the bit numbering leaves it unchanged. -/
def Obligations.DefaultPermutationIsAnInvolution : Prop :=
  (∀ w : Block, permute Config.defaultTables (permute Config.defaultTables w) = w ∧
    invPermute Config.defaultTables w = permute Config.defaultTables w) ∧
  ∀ p : Fin 16, 15 - (Config.defaultTables.pbox p.rev).val = (Config.defaultTables.pbox p).val

/-! ### Assembly notation -/

/-- R77, R78: a mnemonic assembles to the one write of `(r << 4) | OP` to CMD, for RKEY and KXOR with an operand in 1..5 and for the
others with none (r = 0); the assembler refuses any other value. -/
def Obligations.AssemblerTakesExactlyTheLegalOperands : Prop :=
  ∀ (op : Opcode) (r : Nat),
    assembleCommand op r =
      if (if op = .rkey ∨ op = .kxor then 1 ≤ r ∧ r ≤ 5 else r = 0) then
        some [.write .cmd (.lit (BitVec.ofNat 32 (r <<< 4 ||| op.toBits.toNat)))]
      else none

/-- R79: the pseudo-instruction `wait` ends, only after BUSY is seen at 0, and after no more core steps than the command in progress
has left: its last poll is in the cycle after them. -/
def Obligations.WaitEndsWhenBusyIsSeenAtZero : Prop :=
  ∀ (T : CipherTables) (s : State) (env : List (String × Word)), StateInv s →
    (∀ n, n ≤ stepsLeft s → ∃ h, hostRun T n ⟨[.poll], env, s⟩ = .next h ∧ h.program = [.poll]) ∧
    ∃ h, hostRun T (stepsLeft s + 1) ⟨[.poll], env, s⟩ = .next h ∧ h.program = [] ∧ h.core.busy = false

/-- R78, R79: `rd` and `wr` are the one access they name, a mnemonic is its write to CMD, and each pseudo-instruction expands to the
accesses the table lists, in order; `roundkey` with r outside 1..5 is refused. `wait` is the polling loop of
`WaitEndsWhenBusyIsSeenAtZero`. -/
def Obligations.LinesExpandAsListed : Prop :=
  (∀ r name, expandLine (.rd r name) = some [.read r name]) ∧
  (∀ r v, expandLine (.wr r v) = some [.write r v]) ∧
  (∀ op r, expandLine (.mnemonic op r) = assembleCommand op r) ∧
  expandLine .wait = some [.poll] ∧
  expandLine .ack = some [.write .status (.lit 0x0000000E#32)] ∧
  (∀ b, expandLine (.ie b) = some [.write .ctrl b]) ∧
  expandLine .copy = some [.read .dout (some "t"), .write .din (.bound "t")] ∧
  (∀ k p y, expandLine (.encrypt k p y) =
    some [.write .key k, .write .din p, .write .cmd (.lit 0x00000001#32), .poll, .read .dout (some y)]) ∧
  ∀ k r name, expandLine (.roundkey k r name) =
    if 1 ≤ r ∧ r ≤ 5 then
      some [.write .key k, .write .cmd (.lit (BitVec.ofNat 32 (r <<< 4 ||| 0x2))), .poll, .read .dout (some name)]
    else none
end

