-- ==== Sys2Proof/Laws/Decode.lean ====
section
/-!
SUPPORT. What the frames, fields and decoders of Decode.lean do, said once for each.
-/
open Sys2Proof.Machine

namespace Sys2Proof.Laws

theorem writeFrame_data (idx : BitVec 3) (v : Word) : (writeFrame idx v).extractLsb' 0 32 = v := by
  show BitVec.extractLsb' 0 32 (0#4 ++ 1#1 ++ idx ++ v) = v
  rw [BitVec.extractLsb'_append_eq_of_add_le (by decide)]; simp

theorem writeFrame_index (idx : BitVec 3) (v : Word) : (writeFrame idx v).extractLsb' 32 3 = idx := by
  show BitVec.extractLsb' 32 3 (0#4 ++ 1#1 ++ idx ++ v) = idx
  rw [BitVec.extractLsb'_append_eq_of_le (by decide), BitVec.extractLsb'_append_eq_of_add_le (by decide)]; simp

theorem writeFrame_pad (idx : BitVec 3) (v : Word) : (writeFrame idx v).extractLsb' 36 4 = 0#4 := by
  show BitVec.extractLsb' 36 4 (0#4 ++ 1#1 ++ idx ++ v) = 0#4
  rw [BitVec.extractLsb'_append_eq_of_le (by decide), BitVec.extractLsb'_append_eq_of_le (by decide)]; rfl

theorem writeFrame_we (idx : BitVec 3) (v : Word) : (writeFrame idx v).getLsbD 35 = true := by
  show BitVec.getLsbD (0#4 ++ 1#1 ++ idx ++ v) 35 = true
  rw [BitVec.getLsbD_append, if_neg (by decide), BitVec.getLsbD_append, if_neg (by decide)]; rfl

theorem decodeWrite_writeFrame (idx : BitVec 3) (v : Word) :
    decodeWrite (writeFrame idx v) = .ok (.buswrite idx v) := by
  rw [decodeWrite, if_pos (writeFrame_pad idx v), if_pos (writeFrame_we idx v), writeFrame_index, writeFrame_data]


theorem decode_wordBytes (v : Word) : decode (wordBytes v) = decodeCommand v := by
  have h : (v.extractLsb' 24 8 ++ v.extractLsb' 16 8 ++ v.extractLsb' 8 8 ++ v.extractLsb' 0 8 : BitVec 32) = v := by
    rw [BitVec.extractLsb'_append_extractLsb'_eq_extractLsb' (by decide),
      BitVec.extractLsb'_append_extractLsb'_eq_extractLsb' (by decide),
      BitVec.extractLsb'_append_extractLsb'_eq_extractLsb' (by decide)]
    exact BitVec.extractLsb'_eq_self
  simp [decode, wordBytes, h]

theorem decode_readFrame (idx : BitVec 3) : decode [readFrame idx] = .ok (.busread idx) := by
  revert idx; decide

theorem joinBytes (x : BitVec 40) :
    (x.extractLsb' 32 8 ++ x.extractLsb' 24 8 ++ x.extractLsb' 16 8 ++ x.extractLsb' 8 8 ++ x.extractLsb' 0 8 : BitVec 40)
      = x := by
  rw [BitVec.extractLsb'_append_extractLsb'_eq_extractLsb' (by decide),
    BitVec.extractLsb'_append_extractLsb'_eq_extractLsb' (by decide),
    BitVec.extractLsb'_append_extractLsb'_eq_extractLsb' (by decide),
    BitVec.extractLsb'_append_extractLsb'_eq_extractLsb' (by decide)]
  exact BitVec.extractLsb'_eq_self

theorem decode_writeBytes (idx : BitVec 3) (v : Word) : decode (writeBytes idx v) = .ok (.buswrite idx v) := by
  rw [← decodeWrite_writeFrame idx v]
  simp [decode, writeBytes, joinBytes]

theorem joinFields (v : Word) : (resField v ++ rndField v ++ opField v : BitVec 32) = v := by
  unfold resField rndField opField
  rw [BitVec.extractLsb'_append_extractLsb'_eq_extractLsb' (by decide),
    BitVec.extractLsb'_append_extractLsb'_eq_extractLsb' (by decide)]
  exact BitVec.extractLsb'_eq_self

theorem word_eq_of_fields {v w : Word} (h : resField v = resField w) (h' : rndField v = rndField w)
    (h'' : opField v = opField w) : v = w := by
  rw [← joinFields v, ← joinFields w, h, h', h'']

@[simp] theorem opField_cmdword (op : Opcode) (r : BitVec 3) : opField (cmdword op r) = op.toBits := by
  revert r; cases op <;> decide

@[simp] theorem rndField_cmdword (op : Opcode) (r : BitVec 3) : rndField (cmdword op r) = r := by
  revert r; cases op <;> decide

@[simp] theorem resField_cmdword (op : Opcode) (r : BitVec 3) : resField (cmdword op r) = 0 := by
  revert r; cases op <;> decide

@[simp] theorem ofBits_toBits (op : Opcode) : Opcode.ofBits op.toBits = some op := by cases op <;> rfl

theorem toBits_of_ofBits {b : BitVec 4} {op : Opcode} : Opcode.ofBits b = some op → op.toBits = b := by
  revert b op; decide

/-- What the decoder reads from a command word it accepts. -/
theorem decodeCommand_eq_ok {v : Word} {i : Instr} (h : decodeCommand v = .ok i) :
    ∃ op, v = cmdword op (rndField v) ∧ commandOf op (rndField v) = some i := by
  unfold decodeCommand at h
  split_ifs at h with hr
  split at h
  · cases h
  · rename_i op hop
    split at h
    · cases h
    · rename_i j hj
      cases h
      exact ⟨op, word_eq_of_fields (by simpa using hr) (by simp) (by simp [toBits_of_ofBits hop]), hj⟩

theorem commandWord_of_commandOf {op : Opcode} {r : BitVec 3} {i : Instr} (h : commandOf op r = some i) :
    commandWord i = some (cmdword op r) := by
  cases op <;> simp [commandOf] at h <;> obtain ⟨hr, rfl⟩ := h <;> simp_all [commandWord]

theorem decodeCommand_cmdword (op : Opcode) (r : BitVec 3) {i : Instr} (h : commandOf op r = some i) :
    decodeCommand (cmdword op r) = .ok i := by
  simp [decodeCommand, h]

theorem legal_cmdword (op : Opcode) (r : BitVec 3) : legal (cmdword op r) = (commandOf op r).isSome := by
  revert r; cases op <;> decide

/-- A legal word has an assigned opcode and an RND field that opcode takes. -/
theorem legal_fields : ∀ (op : BitVec 4) (r : BitVec 3),
    (([0x0#4, 0x1#4, 0x4#4, 0x5#4, 0x6#4, 0x7#4].contains op && r == 0)
      || ([0x2#4, 0x3#4].contains op && roundFieldLegal r)) = ((Opcode.ofBits op).bind (commandOf · r)).isSome := by
  decide

theorem legal_iff_decodes (v : Word) : legal v = true ↔ ∃ i, decodeCommand v = .ok i := by
  unfold legal decodeCommand
  rw [legal_fields]
  by_cases hr : resField v = 0#25
  · rw [if_pos (show resField v = 0 from hr)]
    cases hop : Opcode.ofBits (opField v) with
    | none => simp [hr]
    | some op => cases hi : commandOf op (rndField v) <;> simp [hr, hi]
  · simp [hr]

end Sys2Proof.Laws
end

