-- ==== Sys2Proof/Laws/State.lean ====
section
/-!
SUPPORT. One lemma for each field of each update of the state, so that no later proof unfolds an update.
-/
namespace Sys2Proof.Machine

/-! ### raiseError -/

@[simp] theorem raiseError_ie (e : ErrorCondition) (s : State) : (raiseError e s).ie = s.ie := rfl
@[simp] theorem raiseError_busy (e : ErrorCondition) (s : State) : (raiseError e s).busy = s.busy := rfl
@[simp] theorem raiseError_done (e : ErrorCondition) (s : State) : (raiseError e s).done = s.done := rfl
@[simp] theorem raiseError_errCmd (e : ErrorCondition) (s : State) : (raiseError e s).errCmd = (s.errCmd || decide (e = .cmdError)) := rfl
@[simp] theorem raiseError_errBusy (e : ErrorCondition) (s : State) : (raiseError e s).errBusy = (s.errBusy || decide (e = .busyError)) := rfl
@[simp] theorem raiseError_rcnt (e : ErrorCondition) (s : State) : (raiseError e s).rcnt = s.rcnt := rfl
@[simp] theorem raiseError_key (e : ErrorCondition) (s : State) : (raiseError e s).key = s.key := rfl
@[simp] theorem raiseError_din (e : ErrorCondition) (s : State) : (raiseError e s).din = s.din := rfl
@[simp] theorem raiseError_dout (e : ErrorCondition) (s : State) : (raiseError e s).dout = s.dout := rfl
@[simp] theorem raiseError_st (e : ErrorCondition) (s : State) : (raiseError e s).st = s.st := rfl
@[simp] theorem raiseError_opc (e : ErrorCondition) (s : State) : (raiseError e s).opc = s.opc := rfl
@[simp] theorem raiseError_rsel (e : ErrorCondition) (s : State) : (raiseError e s).rsel = s.rsel := rfl
@[simp] theorem raiseError_rdata (e : ErrorCondition) (s : State) : (raiseError e s).rdata = s.rdata := rfl
@[simp] theorem raiseError_inputs (e : ErrorCondition) (s : State) : (raiseError e s).inputs = s.inputs := rfl

/-! ### accept -/

@[simp] theorem accept_ie (v : Word) (s : State) : (accept v s).ie = s.ie := rfl
@[simp] theorem accept_busy (v : Word) (s : State) : (accept v s).busy = true := rfl
@[simp] theorem accept_done (v : Word) (s : State) : (accept v s).done = false := rfl
@[simp] theorem accept_errCmd (v : Word) (s : State) : (accept v s).errCmd = s.errCmd := rfl
@[simp] theorem accept_errBusy (v : Word) (s : State) : (accept v s).errBusy = s.errBusy := rfl
@[simp] theorem accept_rcnt (v : Word) (s : State) : (accept v s).rcnt = (if opField v = Opcode.enc.toBits then 1#3 else 0#3) := rfl
@[simp] theorem accept_key (v : Word) (s : State) : (accept v s).key = s.key := rfl
@[simp] theorem accept_din (v : Word) (s : State) : (accept v s).din = s.din := rfl
@[simp] theorem accept_dout (v : Word) (s : State) : (accept v s).dout = s.dout := rfl
@[simp] theorem accept_st (v : Word) (s : State) : (accept v s).st = (if opField v = Opcode.enc.toBits then s.din else s.st) := rfl
@[simp] theorem accept_opc (v : Word) (s : State) : (accept v s).opc = opField v := rfl
@[simp] theorem accept_rsel (v : Word) (s : State) : (accept v s).rsel = rndField v := rfl
@[simp] theorem accept_rdata (v : Word) (s : State) : (accept v s).rdata = s.rdata := rfl
@[simp] theorem accept_inputs (v : Word) (s : State) : (accept v s).inputs = s.inputs := rfl

/-! ### complete -/

@[simp] theorem complete_ie (out : Block) (s : State) : (complete out s).ie = s.ie := rfl
@[simp] theorem complete_busy (out : Block) (s : State) : (complete out s).busy = false := rfl
@[simp] theorem complete_done (out : Block) (s : State) : (complete out s).done = true := rfl
@[simp] theorem complete_errCmd (out : Block) (s : State) : (complete out s).errCmd = s.errCmd := rfl
@[simp] theorem complete_errBusy (out : Block) (s : State) : (complete out s).errBusy = s.errBusy := rfl
@[simp] theorem complete_rcnt (out : Block) (s : State) : (complete out s).rcnt = 0#3 := rfl
@[simp] theorem complete_key (out : Block) (s : State) : (complete out s).key = s.key := rfl
@[simp] theorem complete_din (out : Block) (s : State) : (complete out s).din = s.din := rfl
@[simp] theorem complete_dout (out : Block) (s : State) : (complete out s).dout = out := rfl
@[simp] theorem complete_st (out : Block) (s : State) : (complete out s).st = s.st := rfl
@[simp] theorem complete_opc (out : Block) (s : State) : (complete out s).opc = s.opc := rfl
@[simp] theorem complete_rsel (out : Block) (s : State) : (complete out s).rsel = s.rsel := rfl
@[simp] theorem complete_rdata (out : Block) (s : State) : (complete out s).rdata = s.rdata := rfl
@[simp] theorem complete_inputs (out : Block) (s : State) : (complete out s).inputs = s.inputs := rfl

/-! ### clearStatus -/

@[simp] theorem clearStatus_ie (v : Word) (s : State) : (clearStatus v s).ie = s.ie := rfl
@[simp] theorem clearStatus_busy (v : Word) (s : State) : (clearStatus v s).busy = s.busy := rfl
@[simp] theorem clearStatus_done (v : Word) (s : State) : (clearStatus v s).done = (s.done && !v.getLsbD 1) := rfl
@[simp] theorem clearStatus_errCmd (v : Word) (s : State) : (clearStatus v s).errCmd = (s.errCmd && !v.getLsbD 2) := rfl
@[simp] theorem clearStatus_errBusy (v : Word) (s : State) : (clearStatus v s).errBusy = (s.errBusy && !v.getLsbD 3) := rfl
@[simp] theorem clearStatus_rcnt (v : Word) (s : State) : (clearStatus v s).rcnt = s.rcnt := rfl
@[simp] theorem clearStatus_key (v : Word) (s : State) : (clearStatus v s).key = s.key := rfl
@[simp] theorem clearStatus_din (v : Word) (s : State) : (clearStatus v s).din = s.din := rfl
@[simp] theorem clearStatus_dout (v : Word) (s : State) : (clearStatus v s).dout = s.dout := rfl
@[simp] theorem clearStatus_st (v : Word) (s : State) : (clearStatus v s).st = s.st := rfl
@[simp] theorem clearStatus_opc (v : Word) (s : State) : (clearStatus v s).opc = s.opc := rfl
@[simp] theorem clearStatus_rsel (v : Word) (s : State) : (clearStatus v s).rsel = s.rsel := rfl
@[simp] theorem clearStatus_rdata (v : Word) (s : State) : (clearStatus v s).rdata = s.rdata := rfl
@[simp] theorem clearStatus_inputs (v : Word) (s : State) : (clearStatus v s).inputs = s.inputs := rfl

/-! ### encRound -/

@[simp] theorem encRound_ie (T : CipherTables) (r : RoundIndex) (s : State) : (encRound T r s).ie = s.ie := rfl
@[simp] theorem encRound_busy (T : CipherTables) (r : RoundIndex) (s : State) : (encRound T r s).busy = s.busy := rfl
@[simp] theorem encRound_done (T : CipherTables) (r : RoundIndex) (s : State) : (encRound T r s).done = s.done := rfl
@[simp] theorem encRound_errCmd (T : CipherTables) (r : RoundIndex) (s : State) : (encRound T r s).errCmd = s.errCmd := rfl
@[simp] theorem encRound_errBusy (T : CipherTables) (r : RoundIndex) (s : State) : (encRound T r s).errBusy = s.errBusy := rfl
@[simp] theorem encRound_rcnt (T : CipherTables) (r : RoundIndex) (s : State) : (encRound T r s).rcnt = BitVec.ofNat 3 (roundNumber r + 1) := rfl
@[simp] theorem encRound_key (T : CipherTables) (r : RoundIndex) (s : State) : (encRound T r s).key = s.key := rfl
@[simp] theorem encRound_din (T : CipherTables) (r : RoundIndex) (s : State) : (encRound T r s).din = s.din := rfl
@[simp] theorem encRound_dout (T : CipherTables) (r : RoundIndex) (s : State) : (encRound T r s).dout = s.dout := rfl
@[simp] theorem encRound_st (T : CipherTables) (r : RoundIndex) (s : State) : (encRound T r s).st = cipherRound T s.st s.key r := rfl
@[simp] theorem encRound_opc (T : CipherTables) (r : RoundIndex) (s : State) : (encRound T r s).opc = s.opc := rfl
@[simp] theorem encRound_rsel (T : CipherTables) (r : RoundIndex) (s : State) : (encRound T r s).rsel = s.rsel := rfl
@[simp] theorem encRound_rdata (T : CipherTables) (r : RoundIndex) (s : State) : (encRound T r s).rdata = s.rdata := rfl
@[simp] theorem encRound_inputs (T : CipherTables) (r : RoundIndex) (s : State) : (encRound T r s).inputs = s.inputs := rfl

/-! ### encFinal -/

@[simp] theorem encFinal_ie (T : CipherTables) (s : State) : (encFinal T s).ie = s.ie := rfl
@[simp] theorem encFinal_busy (T : CipherTables) (s : State) : (encFinal T s).busy = false := rfl
@[simp] theorem encFinal_done (T : CipherTables) (s : State) : (encFinal T s).done = true := rfl
@[simp] theorem encFinal_errCmd (T : CipherTables) (s : State) : (encFinal T s).errCmd = s.errCmd := rfl
@[simp] theorem encFinal_errBusy (T : CipherTables) (s : State) : (encFinal T s).errBusy = s.errBusy := rfl
@[simp] theorem encFinal_rcnt (T : CipherTables) (s : State) : (encFinal T s).rcnt = 0#3 := rfl
@[simp] theorem encFinal_key (T : CipherTables) (s : State) : (encFinal T s).key = s.key := rfl
@[simp] theorem encFinal_din (T : CipherTables) (s : State) : (encFinal T s).din = s.din := rfl
@[simp] theorem encFinal_dout (T : CipherTables) (s : State) : (encFinal T s).dout = finalRound T s.st s.key := rfl
@[simp] theorem encFinal_st (T : CipherTables) (s : State) : (encFinal T s).st = finalRound T s.st s.key := rfl
@[simp] theorem encFinal_opc (T : CipherTables) (s : State) : (encFinal T s).opc = s.opc := rfl
@[simp] theorem encFinal_rsel (T : CipherTables) (s : State) : (encFinal T s).rsel = s.rsel := rfl
@[simp] theorem encFinal_rdata (T : CipherTables) (s : State) : (encFinal T s).rdata = s.rdata := rfl
@[simp] theorem encFinal_inputs (T : CipherTables) (s : State) : (encFinal T s).inputs = s.inputs := rfl

/-! ### openCycle -/

@[simp] theorem openCycle_ie (s : State) : (openCycle s).ie = s.ie := rfl
@[simp] theorem openCycle_busy (s : State) : (openCycle s).busy = s.busy := rfl
@[simp] theorem openCycle_done (s : State) : (openCycle s).done = s.done := rfl
@[simp] theorem openCycle_errCmd (s : State) : (openCycle s).errCmd = s.errCmd := rfl
@[simp] theorem openCycle_errBusy (s : State) : (openCycle s).errBusy = s.errBusy := rfl
@[simp] theorem openCycle_rcnt (s : State) : (openCycle s).rcnt = s.rcnt := rfl
@[simp] theorem openCycle_key (s : State) : (openCycle s).key = s.key := rfl
@[simp] theorem openCycle_din (s : State) : (openCycle s).din = s.din := rfl
@[simp] theorem openCycle_dout (s : State) : (openCycle s).dout = s.dout := rfl
@[simp] theorem openCycle_st (s : State) : (openCycle s).st = s.st := rfl
@[simp] theorem openCycle_opc (s : State) : (openCycle s).opc = s.opc := rfl
@[simp] theorem openCycle_rsel (s : State) : (openCycle s).rsel = s.rsel := rfl
@[simp] theorem openCycle_rdata (s : State) : (openCycle s).rdata = none := rfl
@[simp] theorem openCycle_inputs (s : State) : (openCycle s).inputs = s.inputs.tail := rfl

/-! ### accepted -/

@[simp] theorem accepted_ie (s : State) (op : BitVec 4) (rnd : BitVec 3) : (accepted s op rnd).ie = s.ie := rfl
@[simp] theorem accepted_busy (s : State) (op : BitVec 4) (rnd : BitVec 3) : (accepted s op rnd).busy = true := rfl
@[simp] theorem accepted_done (s : State) (op : BitVec 4) (rnd : BitVec 3) : (accepted s op rnd).done = false := rfl
@[simp] theorem accepted_errCmd (s : State) (op : BitVec 4) (rnd : BitVec 3) : (accepted s op rnd).errCmd = s.errCmd := rfl
@[simp] theorem accepted_errBusy (s : State) (op : BitVec 4) (rnd : BitVec 3) : (accepted s op rnd).errBusy = s.errBusy := rfl
@[simp] theorem accepted_rcnt (s : State) (op : BitVec 4) (rnd : BitVec 3) : (accepted s op rnd).rcnt = 0#3 := rfl
@[simp] theorem accepted_key (s : State) (op : BitVec 4) (rnd : BitVec 3) : (accepted s op rnd).key = s.key := rfl
@[simp] theorem accepted_din (s : State) (op : BitVec 4) (rnd : BitVec 3) : (accepted s op rnd).din = s.din := rfl
@[simp] theorem accepted_dout (s : State) (op : BitVec 4) (rnd : BitVec 3) : (accepted s op rnd).dout = s.dout := rfl
@[simp] theorem accepted_st (s : State) (op : BitVec 4) (rnd : BitVec 3) : (accepted s op rnd).st = s.st := rfl
@[simp] theorem accepted_opc (s : State) (op : BitVec 4) (rnd : BitVec 3) : (accepted s op rnd).opc = op := rfl
@[simp] theorem accepted_rsel (s : State) (op : BitVec 4) (rnd : BitVec 3) : (accepted s op rnd).rsel = rnd := rfl
@[simp] theorem accepted_rdata (s : State) (op : BitVec 4) (rnd : BitVec 3) : (accepted s op rnd).rdata = s.rdata := rfl
@[simp] theorem accepted_inputs (s : State) (op : BitVec 4) (rnd : BitVec 3) : (accepted s op rnd).inputs = s.inputs := rfl

/-! ### resetEvent -/

@[simp] theorem resetEvent_ie (s : State) : (resetEvent s).ie = State.reset.ie := rfl
@[simp] theorem resetEvent_busy (s : State) : (resetEvent s).busy = State.reset.busy := rfl
@[simp] theorem resetEvent_done (s : State) : (resetEvent s).done = State.reset.done := rfl
@[simp] theorem resetEvent_errCmd (s : State) : (resetEvent s).errCmd = State.reset.errCmd := rfl
@[simp] theorem resetEvent_errBusy (s : State) : (resetEvent s).errBusy = State.reset.errBusy := rfl
@[simp] theorem resetEvent_rcnt (s : State) : (resetEvent s).rcnt = State.reset.rcnt := rfl
@[simp] theorem resetEvent_key (s : State) : (resetEvent s).key = State.reset.key := rfl
@[simp] theorem resetEvent_din (s : State) : (resetEvent s).din = State.reset.din := rfl
@[simp] theorem resetEvent_dout (s : State) : (resetEvent s).dout = State.reset.dout := rfl
@[simp] theorem resetEvent_st (s : State) : (resetEvent s).st = State.reset.st := rfl
@[simp] theorem resetEvent_opc (s : State) : (resetEvent s).opc = State.reset.opc := rfl
@[simp] theorem resetEvent_rsel (s : State) : (resetEvent s).rsel = State.reset.rsel := rfl
@[simp] theorem resetEvent_rdata (s : State) : (resetEvent s).rdata = State.reset.rdata := rfl
@[simp] theorem resetEvent_inputs (s : State) : (resetEvent s).inputs = s.inputs := rfl

/-! ### withFetchWord -/

@[simp] theorem withFetchWord_ie (s : State) (nbits w : Nat) : (State.withFetchWord s nbits w).ie = s.ie := rfl
@[simp] theorem withFetchWord_busy (s : State) (nbits w : Nat) : (State.withFetchWord s nbits w).busy = s.busy := rfl
@[simp] theorem withFetchWord_done (s : State) (nbits w : Nat) : (State.withFetchWord s nbits w).done = s.done := rfl
@[simp] theorem withFetchWord_errCmd (s : State) (nbits w : Nat) : (State.withFetchWord s nbits w).errCmd = s.errCmd := rfl
@[simp] theorem withFetchWord_errBusy (s : State) (nbits w : Nat) : (State.withFetchWord s nbits w).errBusy = s.errBusy := rfl
@[simp] theorem withFetchWord_rcnt (s : State) (nbits w : Nat) : (State.withFetchWord s nbits w).rcnt = s.rcnt := rfl
@[simp] theorem withFetchWord_key (s : State) (nbits w : Nat) : (State.withFetchWord s nbits w).key = s.key := rfl
@[simp] theorem withFetchWord_din (s : State) (nbits w : Nat) : (State.withFetchWord s nbits w).din = s.din := rfl
@[simp] theorem withFetchWord_dout (s : State) (nbits w : Nat) : (State.withFetchWord s nbits w).dout = s.dout := rfl
@[simp] theorem withFetchWord_st (s : State) (nbits w : Nat) : (State.withFetchWord s nbits w).st = s.st := rfl
@[simp] theorem withFetchWord_opc (s : State) (nbits w : Nat) : (State.withFetchWord s nbits w).opc = s.opc := rfl
@[simp] theorem withFetchWord_rsel (s : State) (nbits w : Nat) : (State.withFetchWord s nbits w).rsel = s.rsel := rfl
@[simp] theorem withFetchWord_rdata (s : State) (nbits w : Nat) : (State.withFetchWord s nbits w).rdata = s.rdata := rfl
@[simp] theorem withFetchWord_inputs (s : State) (nbits w : Nat) : (State.withFetchWord s nbits w).inputs = cycleOfTableWord nbits w :: s.inputs := rfl

end Sys2Proof.Machine
end

