-- ==== Sys2Proof/Laws/Ops.lean ====
section
/-!
SUPPORT. What each shared operation of the machine can do, said once for each: accesses, core steps, clock cycles.
-/
open Sys2Proof.Machine

namespace Sys2Proof.Laws

/-! ### Accesses -/

theorem exec_of_commandWord {i : Instr} {v : Word} (h : commandWord i = some v) (s : State) :
    exec i s = .next (command v s) := by
  cases i <;> simp [commandWord] at h <;> obtain ⟨-, rfl⟩ := h <;> rfl

/-- The effect of one cycle's access, in terms of the port's signals. -/
def portEffect (c : PortCycle) (s : State) : State :=
  if c.sel then
    if c.we then busWriteEffect c.addr c.wdata s else { s with rdata := some (busReadValue c.addr s) }
  else s

theorem portAccess_eq (c : PortCycle) (s : State) : portAccess c s = .next (portEffect c s) := by
  unfold portAccess portEffect
  split_ifs with hsel hwe
  · unfold presented fetchBytes
    rw [if_pos hwe]
    split_ifs with ha
    · rw [decode_wordBytes]
      cases hd : decodeCommand c.wdata with
      | error e => rfl
      | ok i =>
        obtain ⟨op, hv, hc⟩ := decodeCommand_eq_ok hd
        have := exec_of_commandWord (commandWord_of_commandOf hc) s
        rw [← hv] at this
        simp [this, ha, busWriteEffect, regAt, regIndex]
    · rw [decode_writeBytes]; rfl
  · have : c.we = false := by simpa using hwe
    simp [presented, fetchBytes, this, decode_readFrame, exec, execBusread]
  · rfl

/-! ### Ops -/

theorem raiseError_busyError (s : State) : raiseError .busyError s = { s with errBusy := true } := by
  simp [raiseError]

theorem raiseError_cmdError (s : State) : raiseError .cmdError s = { s with errCmd := true } := by
  simp [raiseError]

theorem command_busy {s : State} (v : Word) (h : s.busy = true) : command v s = { s with errBusy := true } := by
  simp [command, h, raiseError_busyError]

theorem command_illegal {s : State} {v : Word} (h : s.busy = false) (hv : legal v = false) :
    command v s = { s with errCmd := true } := by
  simp [command, h, hv, raiseError_cmdError]

theorem command_legal {s : State} {v : Word} (h : s.busy = false) (hv : legal v = true) : command v s = accept v s := by
  simp [command, h, hv]

/-- The register at each of the eight word indices (R22). -/
theorem regAt_cases (a : BitVec 3) :
    (a = 0#3 ∧ regAt a = .ctrl) ∨ (a = 1#3 ∧ regAt a = .status) ∨ (a = 2#3 ∧ regAt a = .cmd) ∨ (a = 3#3 ∧ regAt a = .key) ∨
    (a = 4#3 ∧ regAt a = .din) ∨ (a = 5#3 ∧ regAt a = .dout) ∨ (a = 6#3 ∧ regAt a = .id) ∨
    (a = 7#3 ∧ regAt a = .reserved) := by
  revert a; decide

theorem command_eq (v : Word) (s : State) :
    command v s = if s.busy then { s with errBusy := true } else if legal v then accept v s else { s with errCmd := true } := by
  simp [command, raiseError_busyError, raiseError_cmdError]

theorem lockedWrite_eq (w s : State) : lockedWrite w s = if s.busy then { s with errBusy := true } else w := by
  simp [lockedWrite, raiseError_busyError]

/-- What a write is, by word index. -/
theorem busWriteEffect_cases (a : BitVec 3) (v : Word) (s : State) :
    (a = 0#3 ∧ busWriteEffect a v s = { s with ie := v.getLsbD 0 }) ∨
    (a = 1#3 ∧ busWriteEffect a v s = clearStatus v s) ∨
    (a = 2#3 ∧ s.busy = true ∧ busWriteEffect a v s = { s with errBusy := true }) ∨
    (a = 2#3 ∧ s.busy = false ∧ legal v = true ∧ busWriteEffect a v s = accept v s) ∨
    (a = 2#3 ∧ s.busy = false ∧ legal v = false ∧ busWriteEffect a v s = { s with errCmd := true }) ∨
    (a = 3#3 ∧ s.busy = true ∧ busWriteEffect a v s = { s with errBusy := true }) ∨
    (a = 3#3 ∧ s.busy = false ∧ busWriteEffect a v s = { s with key := v }) ∨
    (a = 4#3 ∧ s.busy = true ∧ busWriteEffect a v s = { s with errBusy := true }) ∨
    (a = 4#3 ∧ s.busy = false ∧ busWriteEffect a v s = { s with din := v.extractLsb' 0 16 }) ∨
    ((a = 5#3 ∨ a = 6#3 ∨ a = 7#3) ∧ busWriteEffect a v s = s) := by
  unfold busWriteEffect
  rcases regAt_cases a with ⟨rfl, h⟩ | ⟨rfl, h⟩ | ⟨rfl, h⟩ | ⟨rfl, h⟩ | ⟨rfl, h⟩ | ⟨rfl, h⟩ | ⟨rfl, h⟩ | ⟨rfl, h⟩ <;>
    simp only [h, command_eq, lockedWrite_eq]
  case inr.inr.inl => cases hb : s.busy <;> cases hl : legal v <;> simp
  case inr.inr.inr.inl => cases hb : s.busy <;> simp
  case inr.inr.inr.inr.inl => cases hb : s.busy <;> simp
  all_goals simp

/-- While busy, a write can change IE and the flags DONE, ERR_CMD and ERR_BUSY, and nothing else. -/
theorem busWriteEffect_busy {s : State} (idx : BitVec 3) (v : Word) (h : s.busy = true) :
    ∃ ie done ec eb, busWriteEffect idx v s = { s with ie := ie, done := done, errCmd := ec, errBusy := eb } := by
  unfold busWriteEffect
  cases regAt idx
  case cmd => exact ⟨_, _, _, _, command_busy v h⟩
  case key => exact ⟨_, _, _, _, (if_pos h).trans (raiseError_busyError s)⟩
  case din => exact ⟨_, _, _, _, (if_pos h).trans (raiseError_busyError s)⟩
  all_goals exact ⟨_, _, _, _, rfl⟩

/-- While busy, an access changes only IE, DONE, the error bits and `rdata`. -/
theorem portEffect_busy {s : State} (c : PortCycle) (h : s.busy = true) :
    ∃ ie done ec eb rd, portEffect c s = { s with ie := ie, done := done, errCmd := ec, errBusy := eb, rdata := rd } := by
  unfold portEffect
  split_ifs
  · obtain ⟨ie, d, ec, eb, h'⟩ := busWriteEffect_busy c.addr c.wdata h
    exact ⟨ie, d, ec, eb, s.rdata, h'⟩
  · exact ⟨_, _, _, _, _, rfl⟩
  · exact ⟨_, _, _, _, _, rfl⟩

/-! ### The core step -/

theorem coreStep_idle (T : CipherTables) {s : State} (h : s.busy = false) : coreStep T s = .next s := by
  simp [coreStep, h]

/-- Everything a core step that goes on can be. -/
theorem coreStep_next_cases {T : CipherTables} {s t : State} (h : coreStep T s = .next t) :
    (s.busy = false ∧ t = s) ∨
    (s.busy = true ∧ s.opc ≠ Opcode.enc.toBits ∧ ∃ out, t = complete out s) ∨
    (s.busy = true ∧ s.opc = Opcode.enc.toBits ∧ ∃ n, RoundIndex.ofBits s.rcnt = some n ∧ roundNumber n ≤ 3 ∧ t = encRound T n s) ∨
    (s.busy = true ∧ s.opc = Opcode.enc.toBits ∧ RoundIndex.ofBits s.rcnt = some .four ∧ t = encFinal T s) := by
  unfold coreStep at h
  split_ifs at h with hb hr
  · have plain : ∀ {op out}, Opcode.ofBits s.opc = some op → op ≠ .enc → finishPlain out s = .next t →
        s.opc ≠ Opcode.enc.toBits ∧ ∃ out, t = complete out s := by
      intro op out hop hne hf
      unfold finishPlain at hf
      split_ifs at hf
      cases hf
      exact ⟨fun he => hne (by simpa [he] using hop.symm), out, rfl⟩
    have round : ∀ {op out}, Opcode.ofBits s.opc = some op → op ≠ .enc → finishRound out s = .next t →
        s.opc ≠ Opcode.enc.toBits ∧ ∃ out, t = complete out s := by
      intro op out hop hne hf
      unfold finishRound at hf
      split at hf
      · rename_i r _
        cases hf
        exact ⟨fun he => hne (by simpa [he] using hop.symm), out r, rfl⟩
      · cases hf
    split at h
    all_goals rename_i hop
    · exact .inr (.inl ⟨hb, plain hop (by decide) h⟩)
    · have he := (toBits_of_ofBits hop).symm
      unfold finishEnc at h
      split_ifs at h
      split at h
      all_goals rename_i hn
      · cases h; exact .inr (.inr (.inl ⟨hb, he, _, hn, by decide, rfl⟩))
      · cases h; exact .inr (.inr (.inl ⟨hb, he, _, hn, by decide, rfl⟩))
      · cases h; exact .inr (.inr (.inl ⟨hb, he, _, hn, by decide, rfl⟩))
      · cases h; exact .inr (.inr (.inr ⟨hb, he, hn, rfl⟩))
      · cases h
      · cases h
    · exact .inr (.inl ⟨hb, round hop (by decide) h⟩)
    · exact .inr (.inl ⟨hb, round hop (by decide) h⟩)
    · exact .inr (.inl ⟨hb, plain hop (by decide) h⟩)
    · exact .inr (.inl ⟨hb, plain hop (by decide) h⟩)
    · exact .inr (.inl ⟨hb, plain hop (by decide) h⟩)
    · exact .inr (.inl ⟨hb, plain hop (by decide) h⟩)
    · cases h
  · cases h
    exact .inl ⟨by simpa using hb, rfl⟩

theorem mergeEdge_idle {pre : State} (acc core : State) (h : pre.busy = false) : mergeEdge pre acc core = acc := by
  simp [mergeEdge, h]

theorem mergeEdge_busy {pre : State} (acc core : State) (h : pre.busy = true) :
    mergeEdge pre acc core = { acc with
      busy := core.busy, rcnt := core.rcnt, st := core.st, dout := core.dout, done := acc.done || !core.busy } := by
  simp [mergeEdge, h]

theorem stepWith_reset (T : CipherTables) {s : State} (h : (nextCycle s).rst = true) :
    stepWith T s = .next { State.reset with inputs := s.inputs.tail } := by
  simp [stepWith, clockEdge, h, resetEvent]

theorem stepWith_idle (T : CipherTables) {s : State} (h : (nextCycle s).rst = false) (hb : s.busy = false) :
    stepWith T s = .next (portEffect (nextCycle s) (openCycle s)) := by
  simp [stepWith, clockEdge, h, portAccess_eq, coreStep_idle T (s := openCycle s) hb, mergeEdge, hb]

theorem stepWith_busy (T : CipherTables) {s : State} (h : (nextCycle s).rst = false) :
    stepWith T s = match coreStep T (openCycle s) with
      | .next core => .next (mergeEdge (openCycle s) (portEffect (nextCycle s) (openCycle s)) core)
      | .fault e => .fault e
      | .refused e => .refused e := by
  simp only [stepWith, clockEdge, h, portAccess_eq]
  cases coreStep T (openCycle s) <;> rfl

/-- Everything a clock cycle that goes on can be. -/
theorem stepWith_next_cases {T : CipherTables} {s t : State} (h : stepWith T s = .next t) :
    ((nextCycle s).rst = true ∧ t = { State.reset with inputs := s.inputs.tail }) ∨
    ((nextCycle s).rst = false ∧ s.busy = false ∧ t = portEffect (nextCycle s) (openCycle s)) ∨
    ((nextCycle s).rst = false ∧ s.busy = true ∧ ∃ core, coreStep T (openCycle s) = .next core ∧
      t = mergeEdge (openCycle s) (portEffect (nextCycle s) (openCycle s)) core) := by
  cases hr : (nextCycle s).rst with
  | true => rw [stepWith_reset T hr] at h; cases h; exact .inl ⟨rfl, rfl⟩
  | false =>
    cases hb : s.busy with
    | false => rw [stepWith_idle T hr hb] at h; cases h; exact .inr (.inl ⟨rfl, rfl, rfl⟩)
    | true =>
      rw [stepWith_busy T hr] at h
      cases hc : coreStep T (openCycle s) with
      | next core => rw [hc] at h; cases h; exact .inr (.inr ⟨rfl, rfl, core, rfl, rfl⟩)
      | fault e => rw [hc] at h; cases h
      | refused e => rw [hc] at h; cases h

end Sys2Proof.Laws
end

