-- ==== Sys2Proof/Laws/Clock.lean ====
section
/-!
SUPPORT. What one clock cycle does to each register: the access of the cycle by what it writes, and the core step beside it.
-/
open Sys2Proof.Machine

namespace Sys2Proof.Laws

/-- Every instruction either only puts a value on `rdata` or has the effect of one write. -/
theorem exec_cases (i : Instr) (s : State) :
    (∃ rd, exec i s = .next { s with rdata := rd }) ∨ (∃ idx v, exec i s = .next (busWriteEffect idx v s)) := by
  cases i
  case busread idx => exact .inl ⟨_, rfl⟩
  case buswrite idx v => exact .inr ⟨idx, v, rfl⟩
  all_goals exact .inr ⟨2#3, _, rfl⟩

/-- Everything the access of a cycle can be, by the register the cycle writes. -/
theorem portEffect_cases (c : PortCycle) (s : State) :
    ((∀ i, Writes c i ↔ False) ∧ ∃ rd, portEffect c s = { s with rdata := rd }) ∨
    ((∀ i, Writes c i ↔ i = 0#3) ∧ portEffect c s = { s with ie := c.wdata.getLsbD 0 }) ∨
    ((∀ i, Writes c i ↔ i = 1#3) ∧ portEffect c s = clearStatus c.wdata s) ∨
    ((∀ i, Writes c i ↔ i = 2#3) ∧ s.busy = true ∧ portEffect c s = { s with errBusy := true }) ∨
    ((∀ i, Writes c i ↔ i = 2#3) ∧ s.busy = false ∧ legal c.wdata = true ∧ portEffect c s = accept c.wdata s) ∨
    ((∀ i, Writes c i ↔ i = 2#3) ∧ s.busy = false ∧ legal c.wdata = false ∧ portEffect c s = { s with errCmd := true }) ∨
    ((∀ i, Writes c i ↔ i = 3#3) ∧ s.busy = true ∧ portEffect c s = { s with errBusy := true }) ∨
    ((∀ i, Writes c i ↔ i = 3#3) ∧ s.busy = false ∧ portEffect c s = { s with key := c.wdata }) ∨
    ((∀ i, Writes c i ↔ i = 4#3) ∧ s.busy = true ∧ portEffect c s = { s with errBusy := true }) ∨
    ((∀ i, Writes c i ↔ i = 4#3) ∧ s.busy = false ∧ portEffect c s = { s with din := c.wdata.extractLsb' 0 16 }) ∨
    (((∀ i, Writes c i ↔ i = 5#3) ∨ (∀ i, Writes c i ↔ i = 6#3) ∨ (∀ i, Writes c i ↔ i = 7#3)) ∧ portEffect c s = s) := by
  by_cases hs : c.sel = true
  · by_cases hw : c.we = true
    · have he : portEffect c s = busWriteEffect c.addr c.wdata s := by simp [portEffect, hs, hw]
      have hk : ∀ k, (∀ i, Writes c i ↔ i = k) ↔ c.addr = k := fun k =>
        ⟨fun h => ((h _).1 ⟨hs, hw, rfl⟩), fun h i => by simp only [Writes, hs, hw, true_and, h]; exact eq_comm⟩
      rw [he]
      simp only [hk]
      exact .inr (busWriteEffect_cases c.addr c.wdata s)
    · exact .inl ⟨fun i => iff_false_intro fun h => hw h.2.1, _, by rw [portEffect, if_pos hs, if_neg hw]⟩
  · exact .inl ⟨fun i => iff_false_intro fun h => hs h.1, s.rdata, by rw [portEffect, if_neg hs]⟩

/-- A core step neither reads nor writes IE, the error bits, `rdata` or the port, and of DONE it can only set it. -/
theorem coreStep_port (T : CipherTables) (s : State) (ie d ec eb : Bool) (rd : Option Word) (ins : List PortCycle)
    (hb : s.busy = true) :
    coreStep T { s with ie := ie, done := d, errCmd := ec, errBusy := eb, rdata := rd, inputs := ins } =
      match coreStep T s with
      | .next core => .next { core with
          ie := ie, done := d || !core.busy, errCmd := ec, errBusy := eb, rdata := rd, inputs := ins }
      | .fault e => .fault e
      | .refused e => .refused e := by
  simp only [coreStep, hb, if_true]
  split_ifs
  · rfl
  · cases Opcode.ofBits s.opc with
    | none => rfl
    | some op =>
      cases op <;>
        simp only [finishNop, finishEnc, finishRkey, finishKxor, finishSub, finishIsub, finishPerm, finishIperm,
          finishPlain, finishRound] <;>
        (repeat' split) <;> simp_all [complete, encRound, encFinal] <;> subst_vars <;> simp

/-- A clock edge with a command in progress is its core step, with what the access writes of IE, DONE, the error bits and `rdata`. -/
theorem stepWith_busy_next (T : CipherTables) {s core : State} (hr : (nextCycle s).rst = false) (hb : s.busy = true)
    (hc : coreStep T s = .next core) :
    ∃ ie d ec eb rd, stepWith T s = .next { core with
        ie := ie, done := d, errCmd := ec, errBusy := eb, rdata := rd, inputs := s.inputs.tail } ∧
      (core.busy = false → d = true) := by
  have h0 : coreStep T (openCycle s) = _ := coreStep_port T s s.ie s.done s.errCmd s.errBusy none s.inputs.tail hb
  rw [hc] at h0
  obtain ⟨ie, d, ec, eb, rd, he⟩ := portEffect_busy (s := openCycle s) (nextCycle s) hb
  refine ⟨ie, d || !core.busy, ec, eb, rd, ?_, by simp +contextual⟩
  rw [stepWith_busy T hr, h0]
  refine congrArg Host.Outcome.next ?_
  rw [mergeEdge_busy (pre := openCycle s) _ _ hb, he]
  rcases coreStep_next_cases hc with ⟨h, -⟩ | ⟨-, -, o, rfl⟩ | ⟨-, -, n, -, -, rfl⟩ | ⟨-, -, -, rfl⟩
  · simp [hb] at h
  all_goals rfl

/-- Which half of a cycle without reset decides each register: the access decides IE, the error bits, KEY, DIN, OPC and RSEL, and all
of them while idle; the core step in progress decides BUSY, ST and DOUT, and can set DONE. -/
theorem stepWith_fields {T : CipherTables} {s t : State} (h : stepWith T s = .next t) (hr : (nextCycle s).rst = false) :
    let p := portEffect (nextCycle s) (openCycle s)
    t.ie = p.ie ∧ t.errCmd = p.errCmd ∧ t.errBusy = p.errBusy ∧ t.key = p.key ∧ t.din = p.din ∧ t.opc = p.opc ∧
      t.rsel = p.rsel ∧ (s.busy = false → t = p) ∧
      (s.busy = true → ∃ core, coreStep T (openCycle s) = .next core ∧ t.busy = core.busy ∧ t.rcnt = core.rcnt ∧
        t.st = core.st ∧ t.dout = core.dout ∧ t.done = (p.done || !core.busy)) := by
  rcases stepWith_next_cases h with ⟨h', -⟩ | ⟨-, hb, rfl⟩ | ⟨-, hb, core, hc, rfl⟩
  · simp [hr] at h'
  · exact ⟨rfl, rfl, rfl, rfl, rfl, rfl, rfl, fun _ => rfl, fun h => by simp [hb] at h⟩
  · rw [mergeEdge_busy (pre := openCycle s) _ _ hb]
    exact ⟨rfl, rfl, rfl, rfl, rfl, rfl, rfl, fun h => by simp [hb] at h, fun _ => ⟨core, hc, rfl, rfl, rfl, rfl, rfl⟩⟩

/-- A run of n + 1 cycles whose first goes on is a run of n cycles from there. -/
theorem runWith_succ (T : CipherTables) (n : Nat) {s t : State} (h : stepWith T s = .next t) :
    runWith T (n + 1) s = runWith T n t := by
  rw [runWith, h]

end Sys2Proof.Laws
end

