-- ==== Sys2Proof/Laws/Datapath.lean ====
section
/-!
SUPPORT. Nibbles, MSB positions and the table lookups of the datapath: what each accessor reads of what was built.
-/
open Sys2Proof.Machine

namespace Sys2Proof.Laws

/-- The four nibbles of a word of four nibbles (R16). -/
theorem nibbles_ofNibbles (n1 n2 n3 n4 : Nibble) :
    nibble1 (ofNibbles n1 n2 n3 n4) = n1 ∧ nibble2 (ofNibbles n1 n2 n3 n4) = n2 ∧
      nibble3 (ofNibbles n1 n2 n3 n4) = n3 ∧ nibble4 (ofNibbles n1 n2 n3 n4) = n4 := by
  refine ⟨?_, ?_, ?_, ?_⟩
  · show BitVec.extractLsb' 12 4 (n1 ++ n2 ++ n3 ++ n4) = n1
    rw [BitVec.extractLsb'_append_eq_of_le (by decide), BitVec.extractLsb'_append_eq_of_le (by decide),
      BitVec.extractLsb'_append_eq_of_le (by decide)]
    exact BitVec.extractLsb'_eq_self
  · show BitVec.extractLsb' 8 4 (n1 ++ n2 ++ n3 ++ n4) = n2
    rw [BitVec.extractLsb'_append_eq_of_le (by decide), BitVec.extractLsb'_append_eq_of_le (by decide),
      BitVec.extractLsb'_append_eq_of_add_le (by decide)]
    exact BitVec.extractLsb'_eq_self
  · show BitVec.extractLsb' 4 4 (n1 ++ n2 ++ n3 ++ n4) = n3
    rw [BitVec.extractLsb'_append_eq_of_le (by decide), BitVec.extractLsb'_append_eq_of_add_le (by decide)]
    exact BitVec.extractLsb'_eq_self
  · show BitVec.extractLsb' 0 4 (n1 ++ n2 ++ n3 ++ n4) = n4
    rw [BitVec.extractLsb'_append_eq_of_add_le (by decide)]
    exact BitVec.extractLsb'_eq_self

/-- A word is the word of its four nibbles (R16). -/
theorem ofNibbles_nibbles (w : Block) : ofNibbles (nibble1 w) (nibble2 w) (nibble3 w) (nibble4 w) = w := by
  unfold ofNibbles nibble1 nibble2 nibble3 nibble4
  rw [BitVec.extractLsb'_append_extractLsb'_eq_extractLsb' (by decide),
    BitVec.extractLsb'_append_extractLsb'_eq_extractLsb' (by decide),
    BitVec.extractLsb'_append_extractLsb'_eq_extractLsb' (by decide)]
  exact BitVec.extractLsb'_eq_self

@[simp] theorem invSboxNibble_sboxNibble (T : CipherTables) (a : Nibble) : invSboxNibble T (sboxNibble T a) = a := by
  simp [invSboxNibble, sboxNibble]

@[simp] theorem sboxNibble_invSboxNibble (T : CipherTables) (a : Nibble) : sboxNibble T (invSboxNibble T a) = a := by
  simp [invSboxNibble, sboxNibble]

@[simp] theorem msbBit_ofMsbBits (f : Fin 16 → Bool) (p : Fin 16) : msbBit (ofMsbBits f) p = f p := by
  simp [msbBit, ofMsbBits]

@[simp] theorem msbBit_permute (T : CipherTables) (w : Block) (q : Fin 16) :
    msbBit (permute T w) q = msbBit w (T.pbox.symm q) := msbBit_ofMsbBits _ q

@[simp] theorem msbBit_invPermute (T : CipherTables) (w : Block) (p : Fin 16) :
    msbBit (invPermute T w) p = msbBit w (T.pbox p) := msbBit_ofMsbBits _ p

/-- MSB position p is bit 15 - p (R15). -/
theorem getLsbD_msb (v : Block) (p : Fin 16) : v.getLsbD (15 - p.val) = msbBit v p := by
  have := p.isLt
  unfold msbBit BitVec.getMsb
  rw [BitVec.getLsb_eq_getElem]
  exact BitVec.getLsbD_eq_getElem (by omega)

/-- Blocks that agree at every MSB position are equal. -/
theorem block_ext {v w : Block} (h : ∀ p, msbBit v p = msbBit w p) : v = w := by
  apply BitVec.eq_of_getLsbD_eq
  intro i hi
  have h' := h ⟨15 - i, by omega⟩
  rw [← getLsbD_msb, ← getLsbD_msb] at h'
  have e : 15 - (15 - i) = i := by omega
  simpa [e] using h'

end Sys2Proof.Laws
end

