-- ==== Sys2Proof/Laws/PerInstr.lean ====
section
/-!
SUPPORT. A statement about every instruction as syntax, one lemma a constructor: its encoding has the length of its format (R70, R80).
-/
namespace Sys2Proof.Laws.EncodingShape

/-- How many bytes the format of an instruction has: a command word 4, a read access 1, a write access 5 (log 8). -/
def formatLength : Instr → Nat
  | .nop => 4
  | .enc => 4
  | .rkey _ => 4
  | .kxor _ => 4
  | .sub => 4
  | .isub => 4
  | .perm => 4
  | .iperm => 4
  | .busread _ => 1
  | .buswrite _ _ => 5

/-- The encoding of an instruction has the length of its format. -/
def Statement (i : Instr) : Prop := (encode i).length = formatLength i

theorem nop : Statement .nop := rfl
theorem enc : Statement .enc := rfl
theorem rkey (r : BitVec 3) : Statement (.rkey r) := rfl
theorem kxor (r : BitVec 3) : Statement (.kxor r) := rfl
theorem sub : Statement .sub := rfl
theorem isub : Statement .isub := rfl
theorem perm : Statement .perm := rfl
theorem iperm : Statement .iperm := rfl
theorem busread (idx : BitVec 3) : Statement (.busread idx) := rfl
theorem buswrite (idx : BitVec 3) (data : Word) : Statement (.buswrite idx data) := rfl

end Sys2Proof.Laws.EncodingShape
end

