-- ==== Sys2Proof/Tests/Slice0.lean ====
section
/-!
SUPPORT. The model's own tests: the WellFormed smoke test, words written out from the encodings of 30_encoding.md and
opcode_table.json, vectors of 95_test_vectors.md (named in each docstring; those that need tables use the default ones, log 4), and
for every statement with hypotheses a witness that meets them.
-/
open Sys2Proof Sys2Proof.Machine

namespace Sys2Proof.Tests

/-! ### Small states -/

/-- The next state of an outcome. -/
def nextOf : Host.Outcome State Fault Refusal → Option State
  | .next t => some t
  | .fault _ => none
  | .refused _ => none

/-- The default tables (R103, R107). -/
def D : CipherTables := Config.defaultTables

/-- Idle, with the key and block of V-ENC-1, and the host about to drive these cycles. -/
def idle (cs : List PortCycle) : State := { State.reset with key := 0x3A94D63F#32, din := 0x26B7#16, inputs := cs }

/-- The same with a command in progress. -/
def busy (opc : BitVec 4) (rsel rcnt : BitVec 3) (cs : List PortCycle) : State :=
  { idle cs with busy := true, opc := opc, rsel := rsel, rcnt := rcnt, st := 0x26B7#16 }

/-- ENC in progress, before round r. -/
def encAt (r : BitVec 3) (cs : List PortCycle) : State := busy 0x1#4 0#3 r cs

def readCycle (idx : BitVec 3) : PortCycle := ⟨false, true, false, idx, 0#32⟩
def resetCycle : PortCycle := ⟨true, true, true, 3#3, 0xFFFFFFFF#32⟩

/-! ### Well-formedness: each check refuses an ill-formed term -/

theorem test_wellFormed_refuses_rkey_0 : (Instr.rkey 0#3).wellFormed = false := by decide
theorem test_wellFormed_refuses_rkey_6 : (Instr.rkey 6#3).wellFormed = false := by decide
theorem test_wellFormed_refuses_kxor_0 : (Instr.kxor 0#3).wellFormed = false := by decide
theorem test_wellFormed_refuses_kxor_7 : (Instr.kxor 7#3).wellFormed = false := by decide
theorem test_wellFormed_takes_bounds :
    (Instr.rkey 1#3).wellFormed = true ∧ (Instr.rkey 5#3).wellFormed = true ∧ (Instr.kxor 1#3).wellFormed = true ∧
      (Instr.kxor 5#3).wellFormed = true := by decide

/-! ### Decoding of words written out bit by bit (R71, R73, R80: RES, RND, OP; or w, aaa, data) -/

theorem test_decode_nop : decodeCommand 0b0000000000000000000000000_000_0000#32 = .ok .nop := by decide
theorem test_decode_enc : decodeCommand 0b0000000000000000000000000_000_0001#32 = .ok .enc := by decide
theorem test_decode_rkey : decodeCommand 0b0000000000000000000000000_011_0010#32 = .ok (.rkey 3#3) := by decide
theorem test_decode_kxor : decodeCommand 0b0000000000000000000000000_100_0011#32 = .ok (.kxor 4#3) := by decide
theorem test_decode_sub : decodeCommand 0b0000000000000000000000000_000_0100#32 = .ok .sub := by decide
theorem test_decode_isub : decodeCommand 0b0000000000000000000000000_000_0101#32 = .ok .isub := by decide
theorem test_decode_perm : decodeCommand 0b0000000000000000000000000_000_0110#32 = .ok .perm := by decide
theorem test_decode_iperm : decodeCommand 0b0000000000000000000000000_000_0111#32 = .ok .iperm := by decide
theorem test_decode_busread : decode [0b0000_0_110#8] = .ok (.busread 6#3) := by decide
theorem test_decode_buswrite :
    decode [0b01111000#8, 0b01010110#8, 0b00110100#8, 0b00010010#8, 0b0000_1_011#8] = .ok (.buswrite 3#3 0x12345678#32) := by
  decide
theorem test_decode_refuses_stray_read : decode [0b0001_0_110#8] = .error .strayBits := by decide
theorem test_decode_refuses_read_with_data : decode [0#8, 0#8, 0#8, 0#8, 0b0000_0_011#8] = .error .readWithData := by decide
theorem test_decode_refuses_two_bytes : decode [0#8, 0#8] = .error (.badLength 2) := by decide
theorem test_tableWord_rkey : decodeTableWord 32 0x52 = some (.rkey 5#3) := by decide
theorem test_tableWord_busread : decodeTableWord 8 0x5 = some (.busread 5#3) := by decide
theorem test_tableWord_buswrite : decodeTableWord 40 0xCDEADBEEF = some (.buswrite 4#3 0xDEADBEEF#32) := by decide

/-! ### One step an instruction -/

/-- V-ENC-1: ST after round 1, and STATUS 0x21 (V-TIM-1). -/
theorem test_enc_round_1 :
    (nextOf (coreStep D (encAt 1#3 []))).map (fun t => (t.st, statusWord t)) = some (0x2E07#16, 0x00000021#32) := by decide

/-- V-ENC-1: the final round from ST = 0xE46E: DOUT, ST and STATUS 0x02 (V-TIM-1). -/
theorem test_enc_final :
    (nextOf (coreStep D { encAt 4#3 [] with st := 0xE46E#16 })).map (fun t => (t.dout, t.st, statusWord t)) =
      some (0xBCD6#16, 0xBCD6#16, 0x00000002#32) := by decide

/-- V-RK-3 and R125's example. -/
theorem test_rkey_3 : (nextOf (coreStep D (busy 0x2#4 3#3 0#3 []))).map State.dout = some 0x94D6#16 := by decide

/-- V-ERR-3: RKEY with r = 0. -/
theorem test_rkey_0 : (nextOf (exec (.buswrite 2#3 0x00000002#32) State.reset)).map statusWord = some 0x00000004#32 := by decide

/-- V-KX-1. -/
theorem test_kxor_1 : (nextOf (coreStep D (busy 0x3#4 1#3 0#3 []))).map State.dout = some 0x1C23#16 := by decide

/-- V-L-3, V-L-4 and V-L-13. -/
theorem test_sub : (nextOf (coreStep D { busy 0x4#4 0#3 0#3 [] with din := 0x1C23#16 })).map State.dout = some 0x45D1#16 := by
  decide
theorem test_isub : (nextOf (coreStep D { busy 0x5#4 0#3 0#3 [] with din := 0x45D1#16 })).map State.dout = some 0x1C23#16 := by
  decide
theorem test_perm : (nextOf (coreStep D { busy 0x6#4 0#3 0#3 [] with din := 0x1234#16 })).map State.dout = some 0x016A#16 := by
  decide
theorem test_iperm : (nextOf (coreStep D { busy 0x7#4 0#3 0#3 [] with din := 0x2E07#16 })).map State.dout = some 0x45D1#16 := by
  decide

/-- V-IF-9: a legal command clears DONE on acceptance. -/
theorem test_perm_accepted :
    (nextOf (exec .perm { idle [] with done := true })).map statusWord = some 0x00000001#32 := by decide

/-- V-NOP-1, its core step: STATUS = 2, DOUT unchanged, irq = 1. -/
theorem test_nop :
    (nextOf (coreStep D { busy 0x0#4 0#3 0#3 [] with ie := true })).map (fun t => (statusWord t, t.dout, irq t)) =
      some (0x00000002#32, 0x0000#16, true) := by decide

/-- V-IF-1: `R 6`. -/
theorem test_busread_id : (nextOf (exec (.busread 6#3) State.reset)).bind State.rdata = some 0x01201004#32 := by decide

/-- V-ERR-11: STATUS as read after round 2 with ERR_BUSY set. -/
theorem test_busread_status :
    (nextOf (exec (.busread 1#3) { encAt 3#3 [] with errBusy := true })).bind State.rdata = some 0x00000039#32 := by decide

/-- V-IF-3: the high half of DIN is discarded. -/
theorem test_buswrite_din : (nextOf (exec (.buswrite 4#3 0xDEADBEEF#32) State.reset)).map State.din = some 0xBEEF#16 := by decide

/-- V-ERR-13: write 1 to clear ERR_BUSY only. -/
theorem test_buswrite_status :
    (nextOf (exec (.buswrite 1#3 0x00000008#32) { idle [] with done := true, errBusy := true })).map statusWord =
      some 0x00000002#32 := by decide

/-- V-ERR-14: the completing step and a write that clears DONE in one cycle: the set wins. -/
theorem test_sameCycle_done_set_wins :
    (nextOf (stepWith D { busy 0x4#4 0#3 0#3 [writeCycle 1#3 0x00000002#32] with din := 0x1C23#16 })).map
      (fun t => (statusWord t, t.dout)) = some (0x00000002#32, 0x45D1#16) := by decide

/-- V-RST-1: reset in mid-command. -/
theorem test_reset_in_midcommand : (nextOf (stepWith D (encAt 3#3 [resetCycle]))) = some State.reset := by decide

/-- Two lines of text with a comment, the first naming KEY by its word index (R78). -/
theorem test_assembleText :
    assembleText ['w', 'r', ' ', '[', '3', ']', ',', ' ', '0', 'x', '1', 'F', ' ', ';', 'k', '\n', 'r', 'k', 'e', 'y', ' ', '5', '\n'] =
      some [.write .key (.lit 0x1F#32), .write .cmd (.lit 0x00000052#32)] := by decide

/-- The assembler refuses `rkey 6` (R78). -/
theorem test_assembleText_refuses : assembleText ['r', 'k', 'e', 'y', ' ', '6'] = none := by decide

/-! ### Witnesses: for each statement with hypotheses, states and operands that meet them -/

theorem witness_resetEdge : resetCycle.rst = true ∧ (encAt 3#3 []).busy = true := by decide
theorem witness_commandDecodes : legal 0x00000053#32 = true ∧ decodeCommand 0x00000053#32 = .ok (.kxor 5#3) := by decide
theorem witness_decodeOfEncode :
    (Instr.rkey 5#3).wellFormed = true ∧ (Instr.buswrite 7#3 0xFFFFFFFF#32).wellFormed = true := by decide
theorem witness_encodeOfDecode : decode [0x12#8, 0#8, 0#8, 0#8] = .ok (.rkey 1#3) := by decide
theorem witness_mnemonic : commandWord (.rkey 1#3) = some 0x00000012#32 ∧ commandWord .iperm = some 0x00000007#32 := by decide

theorem witness_stepRuns_idle :
    (nextCycle (idle [writeCycle 2#3 0x00000001#32])).rst = false ∧ (nextCycle (idle [writeCycle 2#3 0x00000001#32])).sel = true ∧
      decode (fetchBytes (nextCycle (idle [writeCycle 2#3 0x00000001#32]))) = .ok .enc ∧
      (idle [writeCycle 2#3 0x00000001#32]).busy = false := by decide
theorem witness_stepRuns_busy :
    decode (fetchBytes (nextCycle (busy 0x0#4 0#3 0#3 [readCycle 5#3]))) = .ok (.busread 5#3) ∧
      (∃ acc, exec (.busread 5#3) (openCycle (busy 0x0#4 0#3 0#3 [readCycle 5#3])) = .next acc) ∧
      ∃ core, coreStep Config.tables (openCycle (busy 0x0#4 0#3 0#3 [readCycle 5#3])) = .next core :=
  ⟨by decide, ⟨_, rfl⟩, ⟨_, rfl⟩⟩
/-- V-ERR-10: an illegal word, about to be written to CMD while idle. -/
def illegalWhileIdle : State := idle [writeCycle 2#3 0x80000001#32]
/-- V-ERR-11's illegal word, about to be written to CMD while busy. -/
def illegalWhileBusy : State := busy 0x0#4 0#3 0#3 [writeCycle 2#3 0x00000008#32]
theorem witness_stepRuns_illegal :
    (nextCycle illegalWhileIdle).rst = false ∧ Writes (nextCycle illegalWhileIdle) 2#3 ∧
      decode (fetchBytes (nextCycle illegalWhileIdle)) = .error .reservedBitsSet ∧
      legal (nextCycle illegalWhileIdle).wdata = false ∧ illegalWhileIdle.busy = false := by decide
theorem witness_stepRuns_illegal_busy :
    (Writes (nextCycle illegalWhileBusy) 2#3 ∧ legal (nextCycle illegalWhileBusy).wdata = false ∧ illegalWhileBusy.busy = true) ∧
      (∃ acc, exec (.buswrite 2#3 0x00000008#32) (openCycle illegalWhileBusy) = .next acc) ∧
      ∃ core, coreStep Config.tables (openCycle illegalWhileBusy) = .next core := ⟨by decide, ⟨_, rfl⟩, ⟨_, rfl⟩⟩
theorem witness_stepRuns_stuck :
    (nextCycle (encAt 5#3 [readCycle 1#3])).rst = false ∧
      decode (fetchBytes (nextCycle (encAt 5#3 [readCycle 1#3]))) = .ok (.busread 1#3) ∧
      coreStep Config.tables (openCycle (encAt 5#3 [readCycle 1#3])) = .fault .stuckRoundCounter := ⟨rfl, by decide, rfl⟩
theorem witness_stepRuns_noAccess : (nextCycle (encAt 1#3 [])).rst = false ∧ (nextCycle (encAt 1#3 [])).sel = false := by decide
theorem witness_withFetchWord :
    decodeTableWord 8 0x5 = some (.busread 5#3) ∧ decodeTableWord 32 0x12 = some (.rkey 1#3) ∧
      decodeTableWord 40 0xCDEADBEEF = some (.buswrite 4#3 0xDEADBEEF#32) ∧ State.reset.busy = false := by decide
theorem witness_stepKeepsInv : StateInv (encAt 4#3 []) ∧ ∃ t, step (busy 0x2#4 5#3 0#3 []) = .next t :=
  ⟨by decide, ⟨_, rfl⟩⟩
theorem witness_noStop : StateInv (encAt 1#3 []) ∧ StateInv (busy 0x3#4 5#3 0#3 []) := by decide
theorem witness_stuckCoreSteps :
    5 ≤ (encAt 5#3 []).rcnt.toNat ∧ 8 ≤ (busy 0x8#4 0#3 4#3 []).opc.toNat ∧ ¬ SelectLegal (busy 0x2#4 6#3 0#3 []) ∧
      ¬ SelectLegal (encAt 4#3 [] |> fun s => { s with rsel := 1#3 }) ∧ (encAt 0#3 []).opc = Opcode.enc.toBits := by decide

theorem witness_cmdWrite_busy : (encAt 4#3 []).busy = true := by decide
theorem witness_cmdWrite_illegal : (idle []).busy = false ∧ legal 0x00000062#32 = false := by decide
theorem witness_cmdWrite_enc : legal 0x00000001#32 = true ∧ (0x00000001#32).extractLsb' 0 4 = 0x1#4 := by decide
theorem witness_cmdWrite_other : legal 0x00000052#32 = true ∧ (0x00000052#32).extractLsb' 0 4 ≠ 0x1#4 := by decide
theorem witness_busyCommand : commandWord (.kxor 5#3) = some 0x00000053#32 ∧ (encAt 1#3 []).busy = true := by decide

theorem witness_nop : (idle []).busy = false := by decide
theorem witness_sub : (idle []).busy = false ∧ (readCycle 5#3).rst = false := by decide
theorem witness_isub : (idle []).busy = false ∧ (writeCycle 4#3 0#32).rst = false := by decide
theorem witness_perm : (idle []).busy = false ∧ (writeCycle 1#3 2#32).rst = false := by decide
theorem witness_iperm : (idle []).busy = false ∧ PortCycle.idle.rst = false := by decide
theorem witness_rkey : (idle []).busy = false ∧ (1#3).toNat = roundNumber .one ∧ (5#3).toNat = roundNumber .five := by decide
theorem witness_kxor : (idle []).busy = false ∧ (1#3).toNat = roundNumber .one ∧ (5#3).toNat = roundNumber .five := by decide
theorem witness_roundOutside :
    (idle []).busy = false ∧ (encAt 4#3 []).busy = true ∧ roundFieldLegal 0#3 = false ∧ roundFieldLegal 6#3 = false ∧ roundFieldLegal 7#3 = false := by decide
theorem witness_encEncrypts :
    (idle []).busy = false ∧ [readCycle 1#3, writeCycle 3#3 0#32, writeCycle 2#3 8#32, PortCycle.idle].length = 4 ∧
      NoReset [readCycle 1#3, writeCycle 3#3 0#32, writeCycle 2#3 8#32, PortCycle.idle] := by decide
theorem witness_resultIsOfTheOperands :
    commandOf .kxor 5#3 = some (.kxor 5#3) ∧
      commandResult D (.kxor 5#3) (idle []) = some (0x26B7#16 ^^^ 0xD63F#16) ∧ (idle []).busy = false ∧
      Move.reset ∉ [Move.access (.buswrite 3#3 0#32), .core, .access (.busread 5#3)] ∧
      [Move.access (.buswrite 3#3 0#32), .core, .access (.busread 5#3)].count Move.core = latency .kxor := by decide

theorem witness_coreStep_single :
    StateInv (busy 0x0#4 0#3 0#3 []) ∧ StateInv (busy 0x4#4 0#3 0#3 []) ∧ StateInv (busy 0x5#4 0#3 0#3 []) ∧
      StateInv (busy 0x6#4 0#3 0#3 []) ∧ StateInv (busy 0x7#4 0#3 0#3 []) :=
  ⟨by decide, by decide, by decide, by decide, by decide⟩
theorem witness_coreStep_single_round :
    (StateInv (busy 0x2#4 1#3 0#3 []) ∧ (busy 0x2#4 1#3 0#3 []).rsel.toNat = roundNumber .one) ∧
      (StateInv (busy 0x3#4 5#3 0#3 []) ∧ (busy 0x3#4 5#3 0#3 []).rsel.toNat = roundNumber .five) :=
  ⟨by decide, by decide⟩
theorem witness_coreStep_enc :
    (StateInv (encAt 1#3 []) ∧ (encAt 1#3 []).busy = true ∧ (encAt 1#3 []).opc = 0x1#4) ∧
      (StateInv (encAt 3#3 []) ∧ (encAt 3#3 []).rcnt.toNat = roundNumber .three) ∧
      (StateInv (encAt 4#3 []) ∧ (encAt 4#3 []).rcnt.toNat = roundNumber .four) :=
  ⟨by decide, by decide, by decide⟩
theorem witness_commandEnds :
    StateInv (encAt 1#3 [writeCycle 2#3 1#32]) ∧ stepsLeft (encAt 1#3 []) = 4 ∧ stepsLeft (busy 0x6#4 0#3 0#3 []) = 1 ∧
      NoReset ((encAt 1#3 [writeCycle 2#3 1#32]).inputs.take (stepsLeft (encAt 1#3 []))) := by decide

theorem witness_buswrite : (idle []).busy = false ∧ (encAt 2#3 []).busy = true := by decide
theorem witness_idempotent :
    (∃ t, exec (.busread 1#3) (encAt 2#3 []) = .next t) ∧ (∃ t, exec (.buswrite 0#3 1#32) (encAt 2#3 []) = .next t) ∧
      (∃ t, exec (.buswrite 1#3 14#32) (encAt 2#3 []) = .next t) ∧ (∃ t, exec (.buswrite 3#3 1#32) (idle []) = .next t) ∧
      (∃ t, exec (.buswrite 4#3 1#32) (idle []) = .next t) ∧ (∃ t, exec (.buswrite 2#3 1#32) (idle []) = .next t) ∧
      (∃ t, exec (.buswrite 3#3 1#32) (encAt 2#3 []) = .next t) ∧ (∃ t, exec (.buswrite 4#3 1#32) (encAt 2#3 []) = .next t) ∧
      legal 1#32 = true :=
  ⟨⟨_, rfl⟩, ⟨_, rfl⟩, ⟨_, rfl⟩, ⟨_, rfl⟩, ⟨_, rfl⟩, ⟨_, rfl⟩, ⟨_, rfl⟩, ⟨_, rfl⟩, by decide⟩

/-- V-TIM-1: the STATUS read in the cycle of the completing step is the one before it. -/
theorem witness_rdata_read :
    ∃ t, stepWith D (encAt 4#3 [readCycle 1#3]) = .next t ∧ (nextCycle (encAt 4#3 [readCycle 1#3])).rst = false ∧
      (nextCycle (encAt 4#3 [readCycle 1#3])).sel = true ∧ (nextCycle (encAt 4#3 [readCycle 1#3])).we = false ∧
      t.rdata = some 0x00000041#32 := ⟨_, rfl, by decide⟩
theorem witness_rdata_none : ∃ t, stepWith D (idle [writeCycle 3#3 0#32]) = .next t ∧ t.rdata = none := ⟨_, rfl, by decide⟩

theorem witness_keyDin_idle :
    (∃ t, stepWith D (idle [writeCycle 3#3 0xFFFFFFFF#32]) = .next t ∧ t.key = 0xFFFFFFFF#32) ∧
      (∃ t, stepWith D (idle [writeCycle 4#3 0xFFFF1111#32]) = .next t ∧ t.din = 0x1111#16) ∧
      (nextCycle (idle [writeCycle 3#3 0xFFFFFFFF#32])).rst = false ∧
      Writes (nextCycle (idle [writeCycle 3#3 0xFFFFFFFF#32])) 3#3 ∧ Writes (nextCycle (idle [writeCycle 4#3 1#32])) 4#3 :=
  ⟨⟨_, rfl, by decide⟩, ⟨_, rfl, by decide⟩, by decide⟩
/-- V-ERR-11: a KEY write while busy is dropped. -/
theorem witness_keyDin_busy :
    ∃ t, stepWith D (encAt 1#3 [writeCycle 3#3 0x00000000#32]) = .next t ∧ t.key = 0x3A94D63F#32 := ⟨_, rfl, by decide⟩
theorem witness_doutChanges :
    ∃ t, stepWith D (encAt 4#3 []) = .next t ∧ (nextCycle (encAt 4#3 [])).rst = false ∧ t.dout ≠ (encAt 4#3 []).dout :=
  ⟨_, rfl, by decide⟩
theorem witness_stChanges_round :
    ∃ t, stepWith D (encAt 1#3 []) = .next t ∧ (nextCycle (encAt 1#3 [])).rst = false ∧ t.st ≠ (encAt 1#3 []).st :=
  ⟨_, rfl, by decide⟩
theorem witness_stChanges_accept :
    ∃ t, stepWith D (idle [writeCycle 2#3 1#32]) = .next t ∧ t.st ≠ (idle []).st ∧
      Accepts (idle [writeCycle 2#3 1#32]) (nextCycle (idle [writeCycle 2#3 1#32])) := ⟨_, rfl, by decide⟩
theorem witness_latches_accept :
    ∃ t, stepWith D (idle [writeCycle 2#3 0x00000052#32]) = .next t ∧
      Accepts (idle [writeCycle 2#3 0x00000052#32]) (nextCycle (idle [writeCycle 2#3 0x00000052#32])) ∧ t.rsel = 5#3 :=
  ⟨_, rfl, by decide⟩
theorem witness_latches_kept :
    ∃ t, stepWith D (busy 0x2#4 5#3 0#3 [writeCycle 2#3 1#32]) = .next t ∧
      ¬ Accepts (busy 0x2#4 5#3 0#3 [writeCycle 2#3 1#32]) (nextCycle (busy 0x2#4 5#3 0#3 [writeCycle 2#3 1#32])) ∧
      t.opc = 0x2#4 := ⟨_, rfl, by decide⟩
theorem witness_ie :
    (∃ t, stepWith D (encAt 1#3 [writeCycle 0#3 0xFFFFFFFF#32]) = .next t ∧ t.ie = true) ∧
      Writes (nextCycle (encAt 1#3 [writeCycle 0#3 0xFFFFFFFF#32])) 0#3 ∧
      (∃ t, stepWith D (encAt 1#3 []) = .next t) ∧ ¬ Writes (nextCycle (encAt 1#3 [])) 0#3 :=
  ⟨⟨_, rfl, by decide⟩, by decide, ⟨_, rfl⟩, by decide⟩
/-- V-ERR-1 and V-ERR-11. -/
theorem witness_errorBits :
    (∃ t, stepWith D (idle [writeCycle 2#3 0x00000008#32]) = .next t ∧ t.errCmd = true ∧ t.errBusy = false) ∧
      (∃ t, stepWith D (encAt 2#3 [writeCycle 2#3 0x00000008#32]) = .next t ∧ t.errCmd = false ∧ t.errBusy = true) ∧
      (nextCycle (idle [writeCycle 2#3 0x00000008#32])).rst = false := ⟨⟨_, rfl, by decide⟩, ⟨_, rfl, by decide⟩, by decide⟩
theorem witness_done :
    (∃ t, stepWith D (busy 0x6#4 0#3 0#3 [writeCycle 1#3 2#32]) = .next t ∧ t.done = true ∧ t.busy = false) ∧
      (∃ t, stepWith D { idle [writeCycle 1#3 2#32] with done := true } = .next t ∧ t.done = false) ∧
      (nextCycle (busy 0x6#4 0#3 0#3 [writeCycle 1#3 2#32])).rst = false := ⟨⟨_, rfl, by decide⟩, ⟨_, rfl, by decide⟩, by decide⟩
theorem witness_busy :
    (∃ t, stepWith D (encAt 3#3 []) = .next t ∧ t.busy = true ∧ 1 < stepsLeft (encAt 3#3 [])) ∧
      (∃ t, stepWith D (encAt 4#3 []) = .next t ∧ t.busy = false) ∧ StateInv (encAt 3#3 []) ∧ StateInv (encAt 4#3 []) :=
  ⟨⟨_, rfl, by decide⟩, ⟨_, rfl, by decide⟩, by decide⟩
theorem witness_completionProtocol :
    StateInv (idle []) ∧ (∀ c ∈ [statusPoll, PortCycle.idle], ReadsOnly c) ∧
      ∃ u, runWith D 3 { idle [] with inputs := writeCycle 2#3 0x00000052#32 :: [statusPoll, PortCycle.idle] } = .next u ∧
        u.busy = false ∧ u.errCmd = false ∧ u.errBusy = false ∧ busReadValue 5#3 u = 0x0000D63F#32 :=
  ⟨by decide, by decide, ⟨_, rfl, by decide⟩⟩
theorem witness_control :
    SameControl (encAt 4#3 [writeCycle 3#3 1#32]) { encAt 4#3 [writeCycle 3#3 2#32] with key := 0#32, st := 0#16 } ∧
      ∃ t, stepWith D (encAt 4#3 [writeCycle 3#3 1#32]) = .next t := ⟨by decide, ⟨_, rfl⟩⟩
theorem witness_adjacentRoundKeys : roundNumber .five = roundNumber .four + 1 ∧ roundNumber .two = roundNumber .one + 1 := by decide
theorem witness_bridge :
    wordIndexOfByteAddress 0x1000 0x101C = some 7#3 ∧ wordIndexOfByteAddress 0x1000 0x1020 = none ∧
      wordIndexOfByteAddress 0x1000 0x1002 = none ∧ wordIndexOfByteAddress 0x1000 0xFFC = none := by decide
theorem witness_wait : StateInv (encAt 1#3 []) ∧ StateInv (idle []) ∧ stepsLeft (idle []) = 0 := by decide

end Sys2Proof.Tests
end

section
/-!
PROOFS of the statements about the state: what the access of a cycle does to every register, in closed form; the registers one by
one, by the half of the cycle that decides each; STATUS and irq as the host reads them; and the invariants of R35, from what a
cycle can do to BUSY, RCNT and the latches.
-/
open Sys2Proof.Machine Sys2Proof.Laws

namespace Sys2Proof.Proofs

/-! ### The access of a cycle, register by register -/

/-- The registers after the access of a cycle, each with the one condition under which the access changes it: no other register and
no other cause. -/
theorem portEffect_eq (c : PortCycle) (s : State) : portEffect c s =
    { ie := if Writes c 0#3 then c.wdata.getLsbD 0 else s.ie
      busy := s.busy || decide (Accepts s c)
      done := s.done && !decide (Writes c 1#3 ∧ c.wdata.getLsbD 1 = true) && !decide (Accepts s c)
      errCmd := decide (s.busy = false ∧ Writes c 2#3 ∧ legal c.wdata = false) ||
        s.errCmd && !decide (Writes c 1#3 ∧ c.wdata.getLsbD 2 = true)
      errBusy := decide (s.busy = true ∧ (Writes c 2#3 ∨ Writes c 3#3 ∨ Writes c 4#3)) ||
        s.errBusy && !decide (Writes c 1#3 ∧ c.wdata.getLsbD 3 = true)
      rcnt := if Accepts s c then (if opField c.wdata = Opcode.enc.toBits then 1#3 else 0#3) else s.rcnt
      key := if s.busy = false ∧ Writes c 3#3 then c.wdata else s.key
      din := if s.busy = false ∧ Writes c 4#3 then c.wdata.extractLsb' 0 16 else s.din
      dout := s.dout
      st := if Accepts s c ∧ opField c.wdata = Opcode.enc.toBits then s.din else s.st
      opc := if Accepts s c then opField c.wdata else s.opc
      rsel := if Accepts s c then rndField c.wdata else s.rsel
      rdata := (portEffect c s).rdata
      inputs := s.inputs } := by
  rcases portEffect_cases c s with
    ⟨hw, rd, h⟩ | ⟨hw, h⟩ | ⟨hw, h⟩ | ⟨hw, hb, h⟩ | ⟨hw, hb, hl, h⟩ | ⟨hw, hb, hl, h⟩ | ⟨hw, hb, h⟩ | ⟨hw, hb, h⟩ |
    ⟨hw, hb, h⟩ | ⟨hw, hb, h⟩ | ⟨hw | hw | hw, h⟩
  all_goals simp [*, Accepts, regIndex, clearStatus, accept]

/-! Each register of `portEffect_eq` by itself. -/

theorem portEffect_ie (c : PortCycle) (s : State) :
    (portEffect c s).ie = if Writes c 0#3 then c.wdata.getLsbD 0 else s.ie := by rw [portEffect_eq]

theorem portEffect_busy_iff (c : PortCycle) (s : State) :
    (portEffect c s).busy = true ↔ s.busy = true ∨ Accepts s c := by
  rw [portEffect_eq]
  simp only [Bool.or_eq_true, decide_eq_true_eq]

theorem portEffect_done_iff (c : PortCycle) (s : State) : (portEffect c s).done = true ↔
    s.done = true ∧ ¬ (Writes c 1#3 ∧ c.wdata.getLsbD 1 = true) ∧ ¬ Accepts s c := by
  rw [portEffect_eq]
  simp only [Bool.and_eq_true, Bool.not_eq_true', decide_eq_false_iff_not, and_assoc]

theorem portEffect_errCmd_iff (c : PortCycle) (s : State) : (portEffect c s).errCmd = true ↔
    (s.busy = false ∧ Writes c 2#3 ∧ legal c.wdata = false) ∨
    (s.errCmd = true ∧ ¬ (Writes c 1#3 ∧ c.wdata.getLsbD 2 = true)) := by
  rw [portEffect_eq]
  simp only [Bool.or_eq_true, Bool.and_eq_true, Bool.not_eq_true', decide_eq_true_eq, decide_eq_false_iff_not]

theorem portEffect_errBusy_iff (c : PortCycle) (s : State) : (portEffect c s).errBusy = true ↔
    (s.busy = true ∧ (Writes c 2#3 ∨ Writes c 3#3 ∨ Writes c 4#3)) ∨
    (s.errBusy = true ∧ ¬ (Writes c 1#3 ∧ c.wdata.getLsbD 3 = true)) := by
  rw [portEffect_eq]
  simp only [Bool.or_eq_true, Bool.and_eq_true, Bool.not_eq_true', decide_eq_true_eq, decide_eq_false_iff_not]

theorem portEffect_rcnt (c : PortCycle) (s : State) : (portEffect c s).rcnt =
    if Accepts s c then (if opField c.wdata = Opcode.enc.toBits then 1#3 else 0#3) else s.rcnt := by rw [portEffect_eq]

theorem portEffect_key (c : PortCycle) (s : State) :
    (portEffect c s).key = if s.busy = false ∧ Writes c 3#3 then c.wdata else s.key := by rw [portEffect_eq]

theorem portEffect_din (c : PortCycle) (s : State) :
    (portEffect c s).din = if s.busy = false ∧ Writes c 4#3 then c.wdata.extractLsb' 0 16 else s.din := by
  rw [portEffect_eq]

theorem portEffect_dout (c : PortCycle) (s : State) : (portEffect c s).dout = s.dout := by rw [portEffect_eq]

theorem portEffect_st (c : PortCycle) (s : State) : (portEffect c s).st =
    if Accepts s c ∧ opField c.wdata = Opcode.enc.toBits then s.din else s.st := by rw [portEffect_eq]

theorem portEffect_opc (c : PortCycle) (s : State) :
    (portEffect c s).opc = if Accepts s c then opField c.wdata else s.opc := by rw [portEffect_eq]

theorem portEffect_rsel (c : PortCycle) (s : State) :
    (portEffect c s).rsel = if Accepts s c then rndField c.wdata else s.rsel := by rw [portEffect_eq]

/-- A cycle that accepts a command finds the core idle, so with a command in progress none is accepted. -/
theorem not_accepts_of_busy {s : State} {c : PortCycle} (h : s.busy = true) : ¬ Accepts s c :=
  fun ⟨hidle, _⟩ => Bool.false_ne_true (hidle.symm.trans h)

/-! ### A cycle without reset, by the half that decides a register -/

section
variable {T : CipherTables} {s t : State}

/-- The access alone decides IE, the error bits, KEY, DIN and the latches. -/
theorem stepWith_accessFields (h : stepWith T s = .next t) (hr : (nextCycle s).rst = false) :
    let p := portEffect (nextCycle s) (openCycle s)
    t.ie = p.ie ∧ t.errCmd = p.errCmd ∧ t.errBusy = p.errBusy ∧ t.key = p.key ∧ t.din = p.din ∧ t.opc = p.opc ∧
      t.rsel = p.rsel := by
  obtain ⟨hie, hec, heb, hkey, hdin, hopc, hrsel, -, -⟩ := stepWith_fields h hr
  exact ⟨hie, hec, heb, hkey, hdin, hopc, hrsel⟩

/-- With no command in progress, the access is all that happens. -/
theorem stepWith_of_idle (h : stepWith T s = .next t) (hr : (nextCycle s).rst = false) (hb : s.busy = false) :
    t = portEffect (nextCycle s) (openCycle s) := by
  obtain ⟨-, -, -, -, -, -, -, hidle, -⟩ := stepWith_fields h hr
  exact hidle hb

/-- With a command in progress, the core step decides BUSY, RCNT, ST and DOUT, and can set DONE. -/
theorem stepWith_of_busy (h : stepWith T s = .next t) (hr : (nextCycle s).rst = false) (hb : s.busy = true) :
    ∃ core, coreStep T (openCycle s) = .next core ∧ t.busy = core.busy ∧ t.rcnt = core.rcnt ∧
      t.st = core.st ∧ t.dout = core.dout ∧ t.done = ((portEffect (nextCycle s) (openCycle s)).done || !core.busy) := by
  obtain ⟨-, -, -, -, -, -, -, -, hbusy⟩ := stepWith_fields h hr
  exact hbusy hb

/-- The latches after a cycle: the fields of an accepted word, else unchanged. -/
theorem stepWith_latches (h : stepWith T s = .next t) (hr : (nextCycle s).rst = false) :
    t.opc = (if Accepts s (nextCycle s) then opField (nextCycle s).wdata else s.opc) ∧
      t.rsel = (if Accepts s (nextCycle s) then rndField (nextCycle s).wdata else s.rsel) := by
  obtain ⟨-, -, -, -, -, hopc, hrsel⟩ := stepWith_accessFields h hr
  exact ⟨hopc.trans (portEffect_opc _ _), hrsel.trans (portEffect_rsel _ _)⟩

end

/-! ### Registers the access decides -/

/-- Settles O38: both registers are in the access's half of the cycle. -/
theorem keyAndDinChangeOnlyByIdleWrites : Obligations.KeyAndDinChangeOnlyByIdleWrites := by
  intro T s t h hr
  obtain ⟨-, -, -, hkey, hdin, -, -⟩ := stepWith_accessFields h hr
  rw [portEffect_key, openCycle_busy, openCycle_key] at hkey
  rw [portEffect_din, openCycle_busy, openCycle_din] at hdin
  have locked : ∀ idx, s.busy = true ∨ ¬ Writes (nextCycle s) idx → ¬ (s.busy = false ∧ Writes (nextCycle s) idx) :=
    fun idx hn h => hn.elim (by simp [h.1]) (· h.2)
  exact ⟨fun hb hw => hkey.trans (if_pos ⟨hb, hw⟩), fun hn => hkey.trans (if_neg (locked _ hn)),
    fun hb hw => hdin.trans (if_pos ⟨hb, hw⟩), fun hn => hdin.trans (if_neg (locked _ hn))⟩

/-- Settles O41: an accepted word's fields are what the access puts in the latches; nothing else writes them. -/
theorem latchesChangeOnlyOnAcceptance : Obligations.LatchesChangeOnlyOnAcceptance := by
  intro T s t h hr
  obtain ⟨hopc, hrsel⟩ := stepWith_latches h hr
  exact ⟨fun ha => ⟨hopc.trans (if_pos ha), hrsel.trans (if_pos ha)⟩,
    fun hn => ⟨hopc.trans (if_neg hn), hrsel.trans (if_neg hn)⟩⟩

/-- Settles O42: a CTRL write is not locked while busy, and no core step writes IE. -/
theorem ieFollowsCtrlWrites : Obligations.IeFollowsCtrlWrites := by
  intro T s t h hr
  obtain ⟨hie, -, -, -, -, -, -⟩ := stepWith_accessFields h hr
  rw [portEffect_ie] at hie
  exact ⟨fun hw => hie.trans (if_pos hw), fun hn => hie.trans (if_neg hn)⟩

/-- Settles O43: no core step writes an error bit, so each is what the access makes of it. -/
theorem errorBitsAreSetByTheirCauseAndSticky : Obligations.ErrorBitsAreSetByTheirCauseAndSticky := by
  intro T s t h hr
  obtain ⟨-, hec, heb, -, -, -, -⟩ := stepWith_accessFields h hr
  rw [hec, heb]
  exact ⟨portEffect_errCmd_iff _ (openCycle s), portEffect_errBusy_iff _ (openCycle s)⟩

/-! ### Registers the core step decides -/

/-- A core step changes DOUT only when it completes the command in progress. -/
theorem coreStep_dout {T : CipherTables} {s core : State} (h : coreStep T s = .next core) (hd : core.dout ≠ s.dout) :
    core.busy = false := by
  rcases coreStep_next_cases h with ⟨-, rfl⟩ | ⟨-, -, out, rfl⟩ | ⟨-, -, n, -, -, rfl⟩ | ⟨-, -, -, rfl⟩
  · exact absurd rfl hd
  · rfl
  · exact absurd rfl hd
  · rfl

/-- Only a core step of ENC changes ST. -/
theorem coreStep_st {T : CipherTables} {s core : State} (h : coreStep T s = .next core) (hst : core.st ≠ s.st) :
    s.opc = Opcode.enc.toBits := by
  rcases coreStep_next_cases h with ⟨-, rfl⟩ | ⟨-, -, out, rfl⟩ | ⟨-, he, n, -, -, rfl⟩ | ⟨-, he, -, rfl⟩
  · exact absurd rfl hst
  · exact absurd rfl hst
  · exact he
  · exact he

/-- Settles O39: an access never writes DOUT, and a core step that does also clears BUSY, which sets DONE. -/
theorem doutChangesOnlyAtCompletion : Obligations.DoutChangesOnlyAtCompletion := by
  intro T s t h hr hd
  cases hb : s.busy with
  | false =>
    rw [stepWith_of_idle h hr hb, portEffect_dout] at hd
    exact absurd rfl hd
  | true =>
    obtain ⟨core, hc, htb, -, -, htd, hdone⟩ := stepWith_of_busy h hr hb
    have hcore : core.busy = false := coreStep_dout hc (htd ▸ hd)
    exact ⟨rfl, htb.trans hcore, by simp [hdone, hcore]⟩

/-- A legal word is the word of a command that takes its RND field (R74, R77). -/
theorem exists_cmdword_of_legal {v : Word} (h : legal v = true) :
    ∃ op r, v = cmdword op r ∧ (commandOf op r).isSome = true := by
  obtain ⟨i, hi⟩ := (legal_iff_decodes v).1 h
  obtain ⟨op, hv, hc⟩ := decodeCommand_eq_ok hi
  exact ⟨op, rndField v, hv, by simp [hc]⟩

theorem toBits_injective : Function.Injective Opcode.toBits := fun a b h => by
  simpa using congrArg Opcode.ofBits h

/-- ENC has one legal word (R74). -/
theorem eq_one_of_legal_enc {v : Word} (h : legal v = true) (he : opField v = Opcode.enc.toBits) : v = 0x00000001#32 := by
  obtain ⟨op, r, rfl, hc⟩ := exists_cmdword_of_legal h
  obtain rfl : op = .enc := toBits_injective (by simpa using he)
  obtain rfl : r = 0 := by simpa [commandOf] using hc
  decide

/-- Settles O40: an access writes ST only by accepting ENC's one word, and only ENC's core steps write it. -/
theorem stChangesOnlyForEnc : Obligations.StChangesOnlyForEnc := by
  intro T s t h hr hst
  cases hb : s.busy with
  | false =>
    have ht : t.st = if Accepts s (nextCycle s) ∧ opField (nextCycle s).wdata = Opcode.enc.toBits then s.din else s.st := by
      rw [stepWith_of_idle h hr hb]
      exact portEffect_st _ _
    split_ifs at ht with ha
    · obtain ⟨⟨hidle, hw, hl⟩, he⟩ := ha
      exact .inr ⟨⟨hidle, hw, hl⟩, eq_one_of_legal_enc hl he, ht⟩
    · exact absurd ht hst
  | true =>
    obtain ⟨core, hc, -, -, hts, -, -⟩ := stepWith_of_busy h hr hb
    exact .inl ⟨rfl, coreStep_st (s := openCycle s) hc (hts ▸ hst)⟩

/-- Settles O44: while idle the access clears DONE or keeps it; at a core step the completion is or-ed in last, so it wins. -/
theorem doneIsSetByCompletionAndTheSetWins : Obligations.DoneIsSetByCompletionAndTheSetWins := by
  intro T s t h hr
  have hp := portEffect_done_iff (nextCycle s) (openCycle s)
  cases hb : s.busy with
  | false =>
    rw [stepWith_of_idle h hr hb, hp]
    exact (or_iff_right fun ⟨hf, _⟩ => Bool.false_ne_true hf).symm
  | true =>
    obtain ⟨core, -, htb, -, -, -, hdone⟩ := stepWith_of_busy h hr hb
    rw [hdone, htb, Bool.or_eq_true, hp, Bool.not_eq_true', or_comm]
    exact or_congr (and_iff_right rfl).symm Iff.rfl

/-! ### STATUS and the interrupt output -/

/-- Every bit of STATUS (R24). -/
theorem statusWord_getLsbD (s : State) (i : Nat) : (statusWord s).getLsbD i =
    match i with
    | 0 => s.busy
    | 1 => s.done
    | 2 => s.errCmd
    | 3 => s.errBusy
    | j + 4 => s.rcnt.getLsbD j := by
  rw [statusWord, BitVec.getLsbD_setWidth]
  match i with
  | 0 | 1 | 2 | 3 => simp only [BitVec.getLsbD_append]; simp
  | j + 4 =>
    simp only [BitVec.getLsbD_append]
    by_cases hj : j < 3
    · simp [show j + 4 < 32 by omega]
    · simp [BitVec.getLsbD_of_ge _ _ (Nat.le_of_not_lt hj)]

/-- Settles O32: the concatenation of R24, read bit by bit. -/
theorem statusFieldsStandWhereTheTablePutsThem : Obligations.StatusFieldsStandWhereTheTablePutsThem := by
  intro s
  have hbit := statusWord_getLsbD s
  refine ⟨hbit 0, hbit 1, hbit 2, hbit 3, BitVec.eq_of_getLsbD_eq fun i hi => ?_, BitVec.eq_of_getLsbD_eq fun i hi => ?_⟩
  · rw [BitVec.getLsbD_extractLsb', Nat.add_comm, hbit]
    simp [hi]
  · rw [BitVec.getLsbD_extractLsb', show 7 + i = (i + 3) + 4 by omega, hbit]
    simp

/-- Bits 3:1 of STATUS are not all 0 exactly if DONE or an error bit is 1. -/
theorem statusWord_pending_iff (s : State) :
    (statusWord s).extractLsb' 1 3 ≠ 0#3 ↔ (s.done || s.errCmd || s.errBusy) = true := by
  have hbits : (statusWord s).extractLsb' 1 3 =
      BitVec.ofBool s.errBusy ++ BitVec.ofBool s.errCmd ++ BitVec.ofBool s.done := by
    refine BitVec.eq_of_getLsbD_eq fun i hi => ?_
    rw [BitVec.getLsbD_extractLsb', statusWord_getLsbD]
    match i, hi with
    | 0, _ | 1, _ | 2, _ => simp only [BitVec.getLsbD_append]; simp
  rw [hbits]
  cases s.done <;> cases s.errCmd <;> cases s.errBusy <;> decide

theorem ctrlWord_eq_one_iff (s : State) : ctrlWord s = 1#32 ↔ s.ie = true := by
  unfold ctrlWord
  cases s.ie <;> decide

/-- Settles O36: what the host reads of CTRL and STATUS are the two factors of R156. -/
theorem irqIsEnableAndAPendingStatusBit : Obligations.IrqIsEnableAndAPendingStatusBit := fun s => by
  have hctrl : busReadValue 0#3 s = ctrlWord s := rfl
  have hstatus : busReadValue 1#3 s = statusWord s := rfl
  rw [hctrl, hstatus, ctrlWord_eq_one_iff, statusWord_pending_iff, irq, Bool.and_eq_true]

/-! ### Reset -/

/-- Settles O1, by evaluating the reset state. -/
theorem resetGivesEveryRegisterItsValue : Obligations.ResetGivesEveryRegisterItsValue := by
  unfold Obligations.ResetGivesEveryRegisterItsValue
  decide

/-- Settles O11, by evaluating the reset state. -/
theorem invHoldsAtReset : Obligations.InvHoldsAtReset := by
  unfold Obligations.InvHoldsAtReset
  decide

/-! ### The core step of each opcode -/

theorem ofBits_isSome_iff (b : BitVec 4) : (Opcode.ofBits b).isSome = true ↔ b.toNat ≤ 7 := by
  revert b; decide

theorem roundIndex_ofBits_isSome (r : BitVec 3) : (RoundIndex.ofBits r).isSome = roundFieldLegal r := by
  revert r; decide

theorem toNat_of_roundIndex_ofBits {b : BitVec 3} {n : RoundIndex} :
    RoundIndex.ofBits b = some n → b.toNat = roundNumber n := by
  revert b; cases n <;> decide

/-- The latched opcode has a command exactly if it is in 0x0..0x7 (R73). -/
theorem exists_opcode_of_le {b : BitVec 4} (h : b.toNat ≤ 7) : ∃ op, Opcode.ofBits b = some op ∧ b = op.toBits := by
  obtain ⟨op, hop⟩ := Option.isSome_iff_exists.1 ((ofBits_isSome_iff b).2 h)
  exact ⟨op, hop, (toBits_of_ofBits hop).symm⟩

/-- RSEL is legal for the latched opcode exactly if the two make a command (R35, R72). -/
theorem selectLegal_iff {s : State} {op : Opcode} (h : s.opc = op.toBits) :
    SelectLegal s ↔ (commandOf op s.rsel).isSome = true := by
  unfold SelectLegal
  rw [h]
  cases op <;> simp [Opcode.toBits, commandOf, roundFieldLegal]

/-- The core step of the command with opcode `op` in progress. -/
def coreStepOf (T : CipherTables) : Opcode → State → Host.Outcome State Fault Refusal
  | .nop => finishNop
  | .enc => finishEnc T
  | .rkey => finishRkey
  | .kxor => finishKxor
  | .sub => finishSub T
  | .isub => finishIsub T
  | .perm => finishPerm T
  | .iperm => finishIperm T

theorem coreStep_of_opcode (T : CipherTables) {s : State} {op : Opcode} (hb : s.busy = true) (hr : s.rcnt.toNat ≤ 4)
    (hop : Opcode.ofBits s.opc = some op) : coreStep T s = coreStepOf T op s := by
  rw [coreStep, if_pos hb, if_neg (Nat.not_lt.2 hr), hop]
  cases op <;> rfl

theorem finishRound_of_legal (out : RoundIndex → Block) {s : State} (h : roundFieldLegal s.rsel = true) :
    ∃ r, finishRound out s = .next (complete (out r) s) := by
  obtain ⟨r, hr⟩ := Option.isSome_iff_exists.1 ((roundIndex_ofBits_isSome s.rsel).trans h)
  exact ⟨r, by rw [finishRound, hr]⟩

theorem finishRound_of_illegal (out : RoundIndex → Block) {s : State} (h : roundFieldLegal s.rsel = false) :
    finishRound out s = .fault .stuckRoundSelect := by
  have hr : RoundIndex.ofBits s.rsel = none := by
    simpa [h] using roundIndex_ofBits_isSome s.rsel
  rw [finishRound, hr]

/-- With RSEL out of range for the opcode the core step is stuck (U7). -/
theorem coreStepOf_stuck (T : CipherTables) {s : State} {op : Opcode} (h : ¬ (commandOf op s.rsel).isSome = true) :
    coreStepOf T op s = .fault .stuckRoundSelect := by
  cases op
  case rkey => exact finishRound_of_illegal _ (by simpa [commandOf] using h)
  case kxor => exact finishRound_of_illegal _ (by simpa [commandOf] using h)
  all_goals exact if_neg (by simpa [commandOf] using h)

/-- ENC's core step goes on from each of its four rounds (R141, R143). -/
theorem finishEnc_of_round (T : CipherTables) {s : State} (hs : s.rsel = 0#3) (h1 : 1 ≤ s.rcnt.toNat)
    (h4 : s.rcnt.toNat ≤ 4) : ∃ t, finishEnc T s = .next t := by
  have hl : roundFieldLegal s.rcnt = true := by simp [roundFieldLegal]; omega
  obtain ⟨n, hn⟩ := Option.isSome_iff_exists.1 ((roundIndex_ofBits_isSome s.rcnt).trans hl)
  have hnum := toNat_of_roundIndex_ofBits hn
  rw [finishEnc, if_pos hs, hn]
  cases n
  case five => simp [roundNumber] at hnum; omega
  all_goals exact ⟨_, rfl⟩

/-- With latches that make a command, and for ENC a round in 1..4, the core step goes on. -/
theorem coreStepOf_next (T : CipherTables) {s : State} {op : Opcode} (h : (commandOf op s.rsel).isSome = true)
    (henc : op = .enc → 1 ≤ s.rcnt.toNat ∧ s.rcnt.toNat ≤ 4) : ∃ t, coreStepOf T op s = .next t := by
  have round : ∀ out, roundFieldLegal s.rsel = true → ∃ t, finishRound out s = .next t := fun out hl =>
    
    let ⟨_, hr⟩ := finishRound_of_legal out hl
    ⟨_, hr⟩
  cases op
  case rkey => exact round _ (by simpa [commandOf] using h)
  case kxor => exact round _ (by simpa [commandOf] using h)
  case enc =>
    obtain ⟨h1, h4⟩ := henc rfl
    exact finishEnc_of_round T (by simpa [commandOf] using h) h1 h4
  all_goals exact ⟨_, if_pos (by simpa [commandOf] using h)⟩

/-- Settles O14: the range of RCNT is checked first, then OPC, then RSEL; ENC with RCNT = 0 is at no round. -/
theorem stuckCoreStepsOfUnreachableLatches : Obligations.StuckCoreStepsOfUnreachableLatches := by
  intro T s hb
  refine ⟨fun hr => ?_, fun hr hop => ?_, fun hr hop hsel => ?_, fun hr hop hsel => ?_⟩
  · rw [coreStep, if_pos hb, if_pos (show 4 < s.rcnt.toNat from hr)]
  · have hnone : Opcode.ofBits s.opc = none := by
      rw [← Option.not_isSome_iff_eq_none, ofBits_isSome_iff]
      omega
    rw [coreStep, if_pos hb, if_neg (Nat.not_lt.2 hr), hnone]
  · obtain ⟨op, hof, hbits⟩ := exists_opcode_of_le hop
    rw [coreStep_of_opcode T hb hr hof]
    exact coreStepOf_stuck T (mt (selectLegal_iff hbits).2 hsel)
  · rw [coreStep_of_opcode T hb (by simp [hr]) (hop ▸ ofBits_toBits .enc)]
    show finishEnc T s = _
    rw [finishEnc, if_pos hsel, hr]
    rfl

/-! ### The invariants -/

/-- The five invariants of R35 in one sentence: the latches make a command, and RCNT is 0 except that it is a round of ENC while
that command is in progress. -/
theorem stateInv_iff (s : State) : StateInv s ↔
    ∃ op, s.opc = op.toBits ∧ (commandOf op s.rsel).isSome = true ∧
      if s.busy = true ∧ op = .enc then 1 ≤ s.rcnt.toNat ∧ s.rcnt.toNat ≤ 4 else s.rcnt = 0#3 := by
  constructor
  · rintro ⟨hidle, henc, hplain, hop, hsel⟩
    obtain ⟨op, -, hbits⟩ := exists_opcode_of_le hop
    refine ⟨op, hbits, (selectLegal_iff hbits).1 hsel, ?_⟩
    split_ifs with h
    · obtain ⟨hb, rfl⟩ := h
      exact henc hb hbits
    · cases hb : s.busy with
      | false => exact hidle hb
      | true => exact hplain hb fun he => h ⟨hb, toBits_injective (hbits.symm.trans he)⟩
  · rintro ⟨op, hbits, hcmd, hr⟩
    refine ⟨fun hb => ?_, fun hb he => ?_, fun hb he => ?_, ?_, (selectLegal_iff hbits).2 hcmd⟩
    · rwa [if_neg (by simp [hb])] at hr
    · rwa [if_pos ⟨hb, toBits_injective (hbits.symm.trans he)⟩] at hr
    · have hne : op ≠ .enc := fun ho => he (ho ▸ hbits)
      rwa [if_neg (by simp [hne])] at hr
    · exact (ofBits_isSome_iff _).1 (by simp [hbits])

/-- From a state with the invariants the core step goes on. -/
theorem coreStep_next_of_inv (T : CipherTables) {s : State} (h : StateInv s) : ∃ t, coreStep T s = .next t := by
  cases hb : s.busy with
  | false => exact ⟨s, coreStep_idle T hb⟩
  | true =>
    obtain ⟨op, hbits, hcmd, hr⟩ := (stateInv_iff s).1 h
    have hle : s.rcnt.toNat ≤ 4 := by
      split_ifs at hr
      · exact hr.2
      · simp [hr]
    rw [coreStep_of_opcode T hb hle (hbits ▸ ofBits_toBits op)]
    refine coreStepOf_next T hcmd fun he => ?_
    rwa [if_pos ⟨hb, he⟩] at hr

/-- Settles O13: the access of a cycle never stops, and the core step does not from the invariants. -/
theorem noStopFromInv : Obligations.NoStopFromInv := by
  intro s h
  cases hr : (nextCycle s).rst with
  | true => exact ⟨_, stepWith_reset _ hr⟩
  | false =>
    obtain ⟨core, hc⟩ := coreStep_next_of_inv Config.tables (s := openCycle s) h
    refine ⟨mergeEdge (openCycle s) (portEffect (nextCycle s) (openCycle s)) core, ?_⟩
    rw [step, stepWith_busy _ hr, hc]

/-- What a cycle without reset does to BUSY, RCNT and the latches: it accepts a command, stays idle, ends the command in progress, or
takes one of the rounds 1 to 3 of ENC. -/
theorem stepWith_control_cases {T : CipherTables} {s t : State} (h : stepWith T s = .next t) (hr : (nextCycle s).rst = false) :
    (Accepts s (nextCycle s) ∧ t.busy = true ∧ t.opc = opField (nextCycle s).wdata ∧ t.rsel = rndField (nextCycle s).wdata ∧
      t.rcnt = if opField (nextCycle s).wdata = Opcode.enc.toBits then 1#3 else 0#3) ∨
    (¬ Accepts s (nextCycle s) ∧ t.opc = s.opc ∧ t.rsel = s.rsel ∧
      ((s.busy = false ∧ t.busy = false ∧ t.rcnt = s.rcnt) ∨
       (s.busy = true ∧ t.busy = false ∧ t.rcnt = 0#3 ∧ (s.opc = Opcode.enc.toBits → s.rcnt.toNat = 4)) ∨
       (s.busy = true ∧ t.busy = true ∧ s.opc = Opcode.enc.toBits ∧ 1 ≤ s.rcnt.toNat ∧ s.rcnt.toNat ≤ 3 ∧
         t.rcnt = s.rcnt + 1#3))) := by
  obtain ⟨hopc, hrsel⟩ := stepWith_latches h hr
  cases hb : s.busy with
  | false =>
    have ht := stepWith_of_idle h hr hb
    have hbusy := portEffect_busy_iff (nextCycle s) (openCycle s)
    have hrcnt := portEffect_rcnt (nextCycle s) (openCycle s)
    rw [← ht] at hbusy hrcnt
    by_cases ha : Accepts s (nextCycle s)
    · rw [if_pos ha] at hopc hrsel
      exact .inl ⟨ha, hbusy.2 (.inr ha), hopc, hrsel, hrcnt.trans (if_pos ha)⟩
    · rw [if_neg ha] at hopc hrsel
      refine .inr ⟨ha, hopc, hrsel, .inl ⟨rfl, ?_, hrcnt.trans (if_neg ha)⟩⟩
      exact Bool.eq_false_iff.2 fun h => (hbusy.1 h).elim (by simp [hb]) ha
  | true =>
    have ha := not_accepts_of_busy (c := nextCycle s) hb
    rw [if_neg ha] at hopc hrsel
    refine .inr ⟨ha, hopc, hrsel, .inr ?_⟩
    obtain ⟨core, hc, htb, htr, -, -, -⟩ := stepWith_of_busy h hr hb
    rw [htb, htr]
    rcases coreStep_next_cases hc with ⟨hf, -⟩ | ⟨-, hne, out, rfl⟩ | ⟨-, he, n, hn, hle, rfl⟩ | ⟨-, he, hn, rfl⟩
    · exact absurd (hf.symm.trans hb) Bool.false_ne_true
    · exact .inl ⟨rfl, rfl, rfl, fun he => absurd he hne⟩
    · have hnum := toNat_of_roundIndex_ofBits hn
      have hpos : 1 ≤ roundNumber n := by cases n <;> decide
      rw [openCycle_rcnt] at hnum
      refine .inr ⟨rfl, hb, he, by omega, by omega, ?_⟩
      rw [encRound_rcnt, ← hnum, BitVec.ofNat_add, BitVec.ofNat_toNat, BitVec.setWidth_eq]
    · exact .inl ⟨rfl, rfl, rfl, fun _ => toNat_of_roundIndex_ofBits hn⟩

/-- Accepting a legal word establishes the invariants, from any state: its fields make a command, and RCNT is 1 exactly for ENC. -/
theorem stateInv_of_accepted {t : State} {v : Word} (hl : legal v = true) (hb : t.busy = true) (hopc : t.opc = opField v)
    (hrsel : t.rsel = rndField v) (hr : t.rcnt = if opField v = Opcode.enc.toBits then 1#3 else 0#3) : StateInv t := by
  obtain ⟨op, r, rfl, hcmd⟩ := exists_cmdword_of_legal hl
  rw [opField_cmdword] at hopc hr
  rw [rndField_cmdword] at hrsel
  refine (stateInv_iff t).2 ⟨op, hopc, hrsel ▸ hcmd, ?_⟩
  by_cases he : op = .enc
  · simp [hr, he, hb]
  · simp [hr, he, toBits_injective.eq_iff]

/-- A cycle keeps the invariants, with any tables. -/
theorem stepWith_keeps_inv {T : CipherTables} {s t : State} (hs : StateInv s) (h : stepWith T s = .next t) : StateInv t := by
  cases hrst : (nextCycle s).rst with
  | true =>
    rw [stepWith_reset T hrst] at h
    cases h
    exact invHoldsAtReset
  | false =>
    obtain ⟨op, hbits, hcmd, hrcnt⟩ := (stateInv_iff s).1 hs
    rcases stepWith_control_cases h hrst with ⟨⟨-, -, hl⟩, hb, hopc, hrsel, hr⟩ | ⟨-, hopc, hrsel, hcases⟩
    · exact stateInv_of_accepted hl hb hopc hrsel hr
    · refine (stateInv_iff t).2 ⟨op, hopc.trans hbits, hrsel ▸ hcmd, ?_⟩
      rcases hcases with ⟨hsb, htb, hr⟩ | ⟨-, htb, hr, -⟩ | ⟨-, htb, he, h1, h3, hr⟩
      · rw [if_neg (by simp [hsb])] at hrcnt
        rw [if_neg (by simp [htb]), hr, hrcnt]
      · rw [if_neg (by simp [htb]), hr]
      · obtain rfl : op = .enc := toBits_injective (hbits.symm.trans he)
        have hn : t.rcnt.toNat = s.rcnt.toNat + 1 := by rw [hr]; bv_omega
        rw [if_pos ⟨htb, rfl⟩]
        omega

/-- Settles O12: the machine's step is a cycle with the build's tables. -/
theorem stepKeepsInv : Obligations.StepKeepsInv := fun _ _ hs h => stepWith_keeps_inv hs h

/-- Settles O45: of the four things a cycle can do, accepting a command and a round before the last leave BUSY at 1. -/
theorem busyIsSetByAcceptanceAndHeldByStepsLeft : Obligations.BusyIsSetByAcceptanceAndHeldByStepsLeft := by
  intro T s t _ h hr
  unfold stepsLeft
  rcases stepWith_control_cases h hr with ⟨ha, htb, -⟩ | ⟨ha, -, -, hcases⟩
  · exact iff_of_true htb (.inl ha)
  · rw [or_iff_right ha]
    rcases hcases with ⟨hsb, htb, -⟩ | ⟨hsb, htb, -, hlast⟩ | ⟨hsb, htb, he, -, h3, -⟩
    · simp [hsb, htb]
    · by_cases he : s.opc = Opcode.enc.toBits
      · simp [hsb, htb, he, hlast he]
      · simp [hsb, htb, he]
    · simp only [hsb, htb, he, if_true, true_iff]
      omega

end Sys2Proof.Proofs
end

section
/-!
PROOFS of the statements about the host port: what an access reads and writes, which instruction a cycle presents, the cycle as the
access followed by the core step (R177), and a command's result under any accesses while it is in progress (R61, R62).
-/
open Sys2Proof.Machine Sys2Proof.Laws

namespace Sys2Proof.Proofs

/-! ### Reads -/

/-- What a register reads as does not depend on the port. -/
@[simp] theorem busReadValue_port (idx : BitVec 3) (s : State) (rd : Option Word) (ins : List PortCycle) :
    busReadValue idx { s with rdata := rd, inputs := ins } = busReadValue idx s := by
  unfold busReadValue
  cases regAt idx <;> rfl

theorem exec_busread (idx : BitVec 3) (s : State) :
    exec (.busread idx) s = .next { s with rdata := some (busReadValue idx s) } := rfl

/-- Settles O31: the value of R54 at each of the eight word indices. -/
theorem busreadReturnsTheRegister : Obligations.BusreadReturnsTheRegister := fun s =>
  ⟨exec_busread 0#3 s, exec_busread 1#3 s, exec_busread 2#3 s, exec_busread 3#3 s, exec_busread 4#3 s, exec_busread 5#3 s,
    exec_busread 6#3 s, exec_busread 7#3 s⟩

/-! ### Writes -/

theorem exec_buswrite (idx : BitVec 3) (v : Word) (s : State) : exec (.buswrite idx v) s = .next (busWriteEffect idx v s) := rfl

/-- Write-1-to-clear, bit by bit (R25). -/
theorem clearStatus_eq (v : Word) (s : State) : clearStatus v s = { s with
    done := if v.getLsbD 1 then false else s.done
    errCmd := if v.getLsbD 2 then false else s.errCmd
    errBusy := if v.getLsbD 3 then false else s.errBusy } := by
  have clear : ∀ x b : Bool, (x && !b) = if b then false else x := by decide
  simp only [clearStatus, clear]

theorem exec_write_key_idle (v : Word) {s : State} (h : s.busy = false) :
    exec (.buswrite 3#3 v) s = .next { s with key := v } :=
  congrArg Host.Outcome.next ((lockedWrite_eq _ s).trans (if_neg (by simp [h])))

theorem exec_write_din_idle (v : Word) {s : State} (h : s.busy = false) :
    exec (.buswrite 4#3 v) s = .next { s with din := v.extractLsb' 0 16 } :=
  congrArg Host.Outcome.next ((lockedWrite_eq _ s).trans (if_neg (by simp [h])))

theorem exec_write_key_busy (v : Word) {s : State} (h : s.busy = true) :
    exec (.buswrite 3#3 v) s = .next { s with errBusy := true } :=
  congrArg Host.Outcome.next ((lockedWrite_eq _ s).trans (if_pos h))

theorem exec_write_din_busy (v : Word) {s : State} (h : s.busy = true) :
    exec (.buswrite 4#3 v) s = .next { s with errBusy := true } :=
  congrArg Host.Outcome.next ((lockedWrite_eq _ s).trans (if_pos h))

theorem exec_write_cmd (v : Word) (s : State) : exec (.buswrite 2#3 v) s = .next (command v s) := rfl

/-- Settles O33: the write effect of R55 at each of the eight word indices. -/
theorem buswriteWritesTheRegister : Obligations.BuswriteWritesTheRegister := fun v s =>
  ⟨exec_buswrite 0#3 v s, (exec_buswrite 1#3 v s).trans (congrArg _ (clearStatus_eq v s)), exec_write_cmd v s,
    exec_write_key_idle v, exec_write_din_idle v, exec_write_key_busy v, exec_write_din_busy v, exec_buswrite 5#3 v s,
    exec_buswrite 6#3 v s, exec_buswrite 7#3 v s⟩

theorem clearStatus_clearStatus (v : Word) (s : State) : clearStatus v (clearStatus v s) = clearStatus v s := by
  simp [clearStatus]

/-- Settles O34: each write but that of CMD stores what does not depend on the register's old value; a CMD write that is accepted
leaves BUSY at 1, which turns away the next one. -/
theorem writesAreIdempotentButForCmd : Obligations.WritesAreIdempotentButForCmd := by
  intro v s t
  refine ⟨fun idx h => ?read, fun h => ?ctrl, fun h => ?status, fun hb h => ?key, fun hb h => ?din, fun hb hl h => ?cmd,
    fun hb h => ?keyBusy, fun hb h => ?dinBusy⟩
  case read =>
    rw [exec_busread] at h
    cases h
    exact ⟨rfl, by simp only [exec_busread, busReadValue_port]⟩
  case ctrl => cases h; rfl
  case status =>
    obtain rfl : clearStatus v s = t := Host.Outcome.next.inj h
    exact congrArg Host.Outcome.next (clearStatus_clearStatus v s)
  case key =>
    rw [exec_write_key_idle v hb] at h
    cases h
    exact exec_write_key_idle v hb
  case din =>
    rw [exec_write_din_idle v hb] at h
    cases h
    exact exec_write_din_idle v hb
  case cmd =>
    rw [exec_write_cmd, command_legal hb hl] at h
    cases h
    exact ⟨rfl, by rw [exec_write_cmd, command_busy v (accept_busy v s)]⟩
  case keyBusy =>
    rw [exec_write_key_busy v hb] at h
    cases h
    rfl
  case dinBusy =>
    rw [exec_write_din_busy v hb] at h
    cases h
    rfl

/-! ### The port: `rdata`, the list of cycles, and the byte-addressed bridge -/

/-- A write drives nothing on `rdata`. -/
theorem busWriteEffect_rdata (a : BitVec 3) (v : Word) (s : State) : (busWriteEffect a v s).rdata = s.rdata := by
  rcases busWriteEffect_cases a v s with ⟨-, h⟩ | ⟨-, h⟩ | ⟨-, -, h⟩ | ⟨-, -, -, h⟩ | ⟨-, -, -, h⟩ | ⟨-, -, h⟩ | ⟨-, -, h⟩ |
    ⟨-, -, h⟩ | ⟨-, -, h⟩ | ⟨-, h⟩
  all_goals rw [h]
  · exact clearStatus_rdata v s
  · exact accept_rdata v s

theorem portEffect_of_read {c : PortCycle} (s : State) (hs : c.sel = true) (hw : c.we = false) :
    portEffect c s = { s with rdata := some (busReadValue c.addr s) } := by
  rw [portEffect, if_pos hs, if_neg (by simp [hw])]

theorem portEffect_of_no_access {c : PortCycle} (s : State) (hs : c.sel = false) : portEffect c s = s := by
  rw [portEffect, if_neg (by simp [hs])]

/-- A cycle that does not read leaves `rdata` as it was when the cycle began. -/
theorem portEffect_rdata_of_not_read {c : PortCycle} (s : State) (h : c.sel = true → c.we = true) :
    (portEffect c s).rdata = s.rdata := by
  cases hs : c.sel with
  | false => rw [portEffect_of_no_access s hs]
  | true =>
    rw [portEffect, if_pos hs, if_pos (h hs)]
    exact busWriteEffect_rdata _ _ s

/-- The access alone decides `rdata`, and each cycle takes its port signals off the list. -/
theorem stepWith_port {T : CipherTables} {s t : State} (h : stepWith T s = .next t) (hr : (nextCycle s).rst = false) :
    t.rdata = (portEffect (nextCycle s) (openCycle s)).rdata ∧ t.inputs = s.inputs.tail := by
  have hins : (portEffect (nextCycle s) (openCycle s)).inputs = s.inputs.tail := by rw [portEffect_eq, openCycle_inputs]
  rcases stepWith_next_cases h with ⟨h', -⟩ | ⟨-, -, rfl⟩ | ⟨-, hb, core, -, rfl⟩
  · simp [hr] at h'
  · exact ⟨rfl, hins⟩
  · rw [mergeEdge_busy (pre := openCycle s) _ _ hb]
    exact ⟨rfl, hins⟩

/-- Settles O35: the access works on the state before the edge, whose `rdata` line starts as not valid. -/
theorem rdataShowsTheRegisterBeforeTheEdge : Obligations.RdataShowsTheRegisterBeforeTheEdge := by
  intro T s t hr h
  obtain ⟨hrd, -⟩ := stepWith_port h hr
  refine ⟨fun hs hw => ?_, fun hn => hrd.trans (portEffect_rdata_of_not_read _ hn)⟩
  rw [hrd, portEffect_of_read _ hs hw, openCycle, busReadValue_port]

/-- Settles O37: an offset the bridge takes is 4 times a number below 8, and that number is the word index. -/
theorem bridgeTakesExactlyTheWordOffsets : Obligations.BridgeTakesExactlyTheWordOffsets := by
  intro base a idx
  have hidx := idx.isLt
  simp only [wordIndexOfByteAddress]
  split_ifs
  · have hword : BitVec.ofNat 3 ((a - base) / 4) = idx ↔ (a - base) / 4 = idx.toNat := by
      rw [← BitVec.toNat_inj, BitVec.toNat_ofNat, Nat.mod_eq_of_lt (by omega)]
    rw [Option.some_inj, hword]
    omega
  · exact iff_of_false nofun (by omega)
  · exact iff_of_false nofun (by omega)

/-! ### The instruction a cycle presents -/

/-- The bytes of a cycle with an access decode, but for an illegal word written to CMD (R75, R76). -/
theorem decode_fetchBytes (c : PortCycle) (hs : c.sel = true) :
    (∃ i, decode (fetchBytes c) = .ok i) ∨ (Writes c 2#3 ∧ legal c.wdata = false) := by
  unfold fetchBytes
  split_ifs with hw ha
  · rw [decode_wordBytes, ← legal_iff_decodes]
    cases hl : legal c.wdata with
    | true => exact .inl rfl
    | false => exact .inr ⟨⟨hs, hw, ha⟩, rfl⟩
  · exact .inl ⟨_, decode_writeBytes _ _⟩
  · exact .inl ⟨_, decode_readFrame _⟩

theorem presented_of_decode {c : PortCycle} {i : Instr} (h : decode (fetchBytes c) = .ok i) : presented c = i := by
  rw [presented, h]

/-- An illegal word written to CMD is presented as that write (R75). -/
theorem presented_of_illegal {c : PortCycle} (hw : Writes c 2#3) (hl : legal c.wdata = false) :
    presented c = .buswrite 2#3 c.wdata := by
  obtain ⟨-, hwe, ha⟩ := hw
  rw [presented, fetchBytes, if_pos hwe, if_pos (show c.addr = regIndex .cmd from ha), decode_wordBytes]
  cases hd : decodeCommand c.wdata with
  | ok i => simp [(legal_iff_decodes _).2 ⟨i, hd⟩] at hl
  | error e => rw [ha]

theorem exec_presented {c : PortCycle} (s : State) (hs : c.sel = true) : exec (presented c) s = .next (portEffect c s) := by
  rw [← portAccess_eq, portAccess, if_pos hs]

/-! ### The cycle as the access followed by the core step -/

/-- With a command in progress, a core step after the access of a cycle and the two merged at one edge are the same: what the access
then changes is what no core step reads or writes, except that DONE is set by completion in both. -/
theorem stepWith_eq_coreStep_portEffect (T : CipherTables) {s : State} (hr : (nextCycle s).rst = false) (hb : s.busy = true) :
    stepWith T s = coreStep T (portEffect (nextCycle s) (openCycle s)) := by
  obtain ⟨ie, d, ec, eb, rd, he⟩ := portEffect_busy (s := openCycle s) (nextCycle s) hb
  have hcore := coreStep_port T (openCycle s) ie d ec eb rd (openCycle s).inputs hb
  rw [stepWith_busy T hr, he]
  refine Eq.trans ?_ hcore.symm
  cases hc : coreStep T (openCycle s) with
  | fault e => rfl
  | refused e => rfl
  | next core =>
    refine congrArg Host.Outcome.next ?_
    rw [mergeEdge_busy (pre := openCycle s) _ _ hb]
    rcases coreStep_next_cases hc with ⟨hf, -⟩ | ⟨-, -, out, rfl⟩ | ⟨-, -, n, -, -, rfl⟩ | ⟨-, -, -, rfl⟩
    · exact absurd (hf.symm.trans hb) Bool.false_ne_true
    all_goals rfl

/-- With no access there is only the core step. -/
theorem stepWith_of_no_access (T : CipherTables) {s : State} (hr : (nextCycle s).rst = false) (hs : (nextCycle s).sel = false) :
    stepWith T s = coreStep T (openCycle s) := by
  cases hb : s.busy with
  | false => rw [stepWith_idle T hr hb, portEffect_of_no_access _ hs, coreStep_idle T (s := openCycle s) hb]
  | true => rw [stepWith_eq_coreStep_portEffect T hr hb, portEffect_of_no_access _ hs]

/-- Settles O9: the instruction is the one the cycle presents; the rest is what a cycle does while idle, while busy and with no
access. -/
theorem stepRunsTheDecodedInstruction : Obligations.StepRunsTheDecodedInstruction := by
  intro s hr
  refine ⟨decode_fetchBytes _, fun i hs hi => ?_, stepWith_of_no_access _ hr⟩
  have hexec : exec i (openCycle s) = .next (portEffect (nextCycle s) (openCycle s)) := by
    rw [← exec_presented _ hs]
    rcases hi with hd | ⟨hw, hl, rfl⟩
    · rw [presented_of_decode hd]
    · rw [presented_of_illegal hw hl]
  refine ⟨fun hb => ?idle, fun hb acc core ha hc => ?busy, fun hb e he => ?stuck⟩
  case idle => rw [step, stepWith_idle _ hr hb, hexec]
  case busy =>
    rw [hexec] at ha
    cases ha
    rw [step, stepWith_busy _ hr, hc]
  case stuck => rw [step, stepWith_busy _ hr, he]

theorem runMoves_singleton (T : CipherTables) (m : Move) (s : State) : runMoves T [m] s = moveStep T m s := by
  rw [runMoves]
  cases moveStep T m s <;> rfl

theorem runMoves_access (T : CipherTables) (i : Instr) (ms : List Move) {s t : State} (h : exec i s = .next t) :
    runMoves T (.access i :: ms) s = runMoves T ms t := by
  rw [runMoves, moveStep, h]

theorem runMoves_core (T : CipherTables) (ms : List Move) {s t : State} (h : coreStep T s = .next t) :
    runMoves T (.core :: ms) s = runMoves T ms t := by
  rw [runMoves, moveStep, h]

/-- The moves of a cycle without reset are the access and then, with a command in progress, a core step. -/
theorem runMoves_cycleMoves (T : CipherTables) {c : PortCycle} (pre s : State) (hr : c.rst = false) :
    runMoves T (cycleMoves c pre) s = runMoves T (if pre.busy then [.core] else []) (portEffect c s) := by
  rw [cycleMoves, if_neg (by simp [hr])]
  cases hs : c.sel with
  | false => rw [portEffect_of_no_access s hs]; rfl
  | true => exact runMoves_access T _ _ (exec_presented s hs)

/-- Settles O15, by the three kinds of cycle: reset, access alone, access and core step. -/
theorem cycleIsAnInterleaving : Obligations.CycleIsAnInterleaving := by
  intro T s
  cases hr : (nextCycle s).rst with
  | true =>
    rw [cycleMoves, if_pos hr]
    exact stepWith_reset T hr
  | false =>
    rw [runMoves_cycleMoves T s _ hr]
    cases hb : s.busy with
    | false => exact stepWith_idle T hr hb
    | true => exact (stepWith_eq_coreStep_portEffect T hr hb).trans (runMoves_singleton T .core _).symm

/-! ### A command's result after its core steps, whatever the host does meanwhile -/

/-- The core steps of a command in progress go on, and its `n`-th step from here ends it with `y` in DOUT. -/
def ResultIn (T : CipherTables) (y : Block) : Nat → State → Prop
  | 0, s => s.busy = false ∧ s.dout = y
  | n + 1, s => s.busy = true ∧ ∃ t, coreStep T s = .next t ∧ ResultIn T y n t

section
variable {T : CipherTables} {y : Block} {n : Nat} {s t : State}

/-- What a host can change while a command is in progress has no part in its result. -/
theorem ResultIn.port (h : ResultIn T y n s) (ie d ec eb : Bool) (rd : Option Word) (ins : List PortCycle) :
    ResultIn T y n { s with ie := ie, done := d, errCmd := ec, errBusy := eb, rdata := rd, inputs := ins } := by
  induction n generalizing s d with
  | zero => exact h
  | succ n ih =>
    obtain ⟨hb, t, hc, ht⟩ := h
    exact ⟨hb, _, by rw [coreStep_port T s ie d ec eb rd ins hb, hc], ih ht _⟩

/-- Any instruction the host presents while a command is in progress changes at most IE, DONE, the error bits and `rdata`. -/
theorem exec_busy (i : Instr) (hb : s.busy = true) : ∃ ie d ec eb rd,
    exec i s = .next { s with ie := ie, done := d, errCmd := ec, errBusy := eb, rdata := rd } := by
  rcases exec_cases i s with ⟨rd, h⟩ | ⟨idx, v, h⟩
  · exact ⟨_, _, _, _, rd, h⟩
  · obtain ⟨ie, d, ec, eb, he⟩ := busWriteEffect_busy idx v hb
    exact ⟨ie, d, ec, eb, s.rdata, by rw [h, he]⟩

theorem exec_keeps_dout (i : Instr) (s : State) : ∃ t, exec i s = .next t ∧ t.dout = s.dout := by
  rcases exec_cases i s with ⟨rd, h⟩ | ⟨idx, v, h⟩
  · exact ⟨_, h, rfl⟩
  · exact ⟨_, h, portEffect_dout (writeCycle idx v) s⟩

/-- Host accesses alone never write DOUT, even those that start a command (R30). -/
theorem runMoves_keeps_dout (T : CipherTables) {ms : List Move} (hreset : Move.reset ∉ ms) (hcore : Move.core ∉ ms) (s : State) :
    ∃ t, runMoves T ms s = .next t ∧ t.dout = s.dout := by
  induction ms generalizing s with
  | nil => exact ⟨s, rfl, rfl⟩
  | cons m ms ih =>
    rw [List.mem_cons, not_or] at hreset hcore
    obtain ⟨hm, hreset⟩ := hreset
    obtain ⟨hm', hcore⟩ := hcore
    cases m with
    | reset => exact absurd rfl hm
    | core => exact absurd rfl hm'
    | access i =>
      obtain ⟨t, ht, hd⟩ := exec_keeps_dout i s
      obtain ⟨u, hu, hd'⟩ := ih hreset hcore t
      exact ⟨u, (runMoves_access T i ms ht).trans hu, hd'.trans hd⟩

/-- Moves with exactly the core steps a command has left leave its result in DOUT, whatever accesses stand among them. -/
theorem ResultIn.dout_after_moves {ms : List Move} (h : ResultIn T y (ms.count .core) s) (hreset : Move.reset ∉ ms) :
    ∃ t, runMoves T ms s = .next t ∧ t.dout = y := by
  induction ms generalizing s with
  | nil => exact ⟨s, rfl, h.2⟩
  | cons m ms ih =>
    obtain ⟨hm, hrest⟩ := not_or.1 (List.mem_cons.not.1 hreset)
    cases m with
    | reset => exact absurd rfl hm
    | core =>
      rw [List.count_cons_self] at h
      obtain ⟨-, t, hc, ht⟩ := h
      obtain ⟨u, hu, hd⟩ := ih ht hrest
      exact ⟨u, (runMoves_core T ms hc).trans hu, hd⟩
    | access i =>
      cases hn : (Move.access i :: ms).count .core with
      | zero =>
        rw [hn] at h
        obtain ⟨u, hu, hd⟩ := runMoves_keeps_dout T hreset (List.count_eq_zero.1 hn) s
        exact ⟨u, hu, hd.trans h.2⟩
      | succ n =>
        rw [hn] at h
        obtain ⟨ie, d, ec, eb, rd, he⟩ := exec_busy i h.1
        have hcount : ms.count .core = n + 1 := by rwa [List.count_cons_of_ne (by simp)] at hn
        obtain ⟨u, hu, hd⟩ := ih (hcount ▸ h.port ie d ec eb rd s.inputs) hrest
        exact ⟨u, (runMoves_access T i ms he).trans hu, hd⟩

/-! ### The core steps of an accepted command -/

/-- The core step that completes a single-layer command writes that command's result (R123). -/
theorem coreStepOf_single {op : Opcode} {i : Instr} (hne : op ≠ .enc) (hc : commandOf op s.rsel = some i)
    (hy : commandResult T i s = some y) : coreStepOf T op s = .next (complete y s) := by
  have round : ∀ {out : RoundIndex → Block}, (RoundIndex.ofBits s.rsel).map out = some y →
      finishRound out s = .next (complete y s) := by
    intro out h
    obtain ⟨n, hn, rfl⟩ := Option.map_eq_some_iff.1 h
    rw [finishRound, hn]
  cases op
  case enc => exact absurd rfl hne
  case rkey =>
    obtain ⟨-, rfl⟩ : _ ∧ Instr.rkey s.rsel = i := by simpa [commandOf] using hc
    exact round hy
  case kxor =>
    obtain ⟨-, rfl⟩ : _ ∧ Instr.kxor s.rsel = i := by simpa [commandOf] using hc
    exact round hy
  all_goals
    obtain ⟨hsel, rfl⟩ : s.rsel = 0#3 ∧ _ = i := by simpa [commandOf] using hc
    obtain rfl := Option.some_inj.1 hy
    exact if_pos hsel

/-- The core step of ENC in a round of R141 or R143. -/
theorem coreStep_enc {r : RoundIndex} (hb : s.busy = true) (hop : s.opc = Opcode.enc.toBits) (hsel : s.rsel = 0#3)
    (hr : RoundIndex.ofBits s.rcnt = some r) :
    (roundNumber r ≤ 3 → coreStep T s = .next (encRound T r s)) ∧
      (roundNumber r = 4 → coreStep T s = .next (encFinal T s)) := by
  have hnum := toNat_of_roundIndex_ofBits hr
  have hstep : s.rcnt.toNat ≤ 4 → coreStep T s = finishEnc T s := fun h =>
    coreStep_of_opcode (op := .enc) T hb h (hop ▸ ofBits_toBits .enc)
  constructor
  · intro hle
    rw [hstep (by omega), finishEnc, if_pos hsel, hr]
    cases r
    case four | five => simp [roundNumber] at hle
    all_goals rfl
  · intro h4
    rw [hstep (by omega), finishEnc, if_pos hsel, hr]
    cases r
    case four => rfl
    all_goals simp [roundNumber] at h4

/-- From ENC's first round with DIN in ST, the four rounds leave Encrypt(KEY, DIN) (R144). -/
theorem resultIn_enc (hb : s.busy = true) (hop : s.opc = Opcode.enc.toBits) (hsel : s.rsel = 0#3) (hr : s.rcnt = 1#3) :
    ResultIn T (encrypt T s.key s.st) 4 s := by
  have h1 := (coreStep_enc (T := T) (r := .one) hb hop hsel (by rw [hr]; rfl)).1 (by decide)
  have h2 := (coreStep_enc (T := T) (s := encRound T .one s) (r := .two) hb hop hsel rfl).1 (by decide)
  have h3 := (coreStep_enc (T := T) (s := encRound T .two (encRound T .one s)) (r := .three) hb hop hsel rfl).1 (by decide)
  have h4 := (coreStep_enc (T := T) (s := encRound T .three (encRound T .two (encRound T .one s))) (r := .four)
    hb hop hsel rfl).2 rfl
  exact ⟨hb, _, h1, hb, _, h2, hb, _, h3, hb, _, h4, rfl, rfl⟩

theorem commandResult_accept (T : CipherTables) (i : Instr) (v : Word) (s : State) :
    commandResult T i (accept v s) = commandResult T i s := by
  cases i <;> rfl

theorem commandResult_inputs (T : CipherTables) (i : Instr) (s : State) (ins : List PortCycle) :
    commandResult T i { s with inputs := ins } = commandResult T i s := by
  cases i <;> rfl

/-- An accepted command leaves its result in DOUT at the last of its core steps (R122, R131). -/
theorem resultIn_accept {op : Opcode} {r : BitVec 3} {i : Instr} (hc : commandOf op r = some i)
    (hy : commandResult T i s = some y) : ResultIn T y (latency op) (accept (cmdword op r) s) := by
  by_cases he : op = .enc
  · subst he
    obtain ⟨rfl, rfl⟩ : r = 0#3 ∧ Instr.enc = i := by simpa [commandOf] using hc
    obtain rfl := Option.some_inj.1 hy
    exact resultIn_enc (s := accept (cmdword .enc 0#3) s) rfl (by simp) (by simp) (by simp)
  · have hlat : latency op = 1 := by
      cases op
      case enc => exact absurd rfl he
      all_goals rfl
    have hrcnt : (accept (cmdword op r) s).rcnt = 0#3 := by simp [toBits_injective.eq_iff, he]
    have hstep := coreStep_of_opcode T (s := accept (cmdword op r) s) (op := op) rfl (by rw [hrcnt]; decide) (by simp)
    rw [hlat]
    exact ⟨rfl, _, hstep.trans (coreStepOf_single he (by simpa using hc) ((commandResult_accept T i _ s).trans hy)), rfl, rfl⟩

end

/-- Settles O27: acceptance fixes the result and the core steps to it, and no access among them changes either. -/
theorem resultIsOfTheOperandsAtAcceptance : Obligations.ResultIsOfTheOperandsAtAcceptance := by
  intro T op r i y s ms hc hy hb hreset hcount
  have haccept : exec i s = .next (accept (cmdword op r) s) := by
    rw [exec_of_commandWord (commandWord_of_commandOf hc), command_legal hb (by simp [legal_cmdword, hc])]
  rw [runMoves_access T i ms haccept]
  have hres := resultIn_accept hc hy
  rw [← hcount] at hres
  exact hres.dout_after_moves hreset

/-! ### The completion protocol -/

/-- What every cycle of a kind keeps, a run of such cycles keeps. -/
theorem runWith_keeps {T : CipherTables} {P : State → Prop} {Q : PortCycle → Prop} (hrst : ∀ c, Q c → c.rst = false)
    (hkeep : ∀ s t, Q (nextCycle s) → P s → stepWith T s = .next t → P t) {cs : List PortCycle} (hcs : ∀ c ∈ cs, Q c)
    {s u : State} (hins : s.inputs = cs) (hs : P s) (h : runWith T cs.length s = .next u) : P u := by
  induction cs generalizing s with
  | nil => cases h; exact hs
  | cons c cs ih =>
    obtain ⟨hc, hrest⟩ := List.forall_mem_cons.1 hcs
    have hnext : nextCycle s = c := by rw [nextCycle, hins]; rfl
    rw [← hnext] at hc
    rw [List.length_cons, runWith] at h
    cases ht : stepWith T s with
    | fault e => rw [ht] at h; cases h
    | refused e => rw [ht] at h; cases h
    | next t =>
      rw [ht] at h
      obtain ⟨-, hti⟩ := stepWith_port ht (hrst _ hc)
      exact ih hrest (by rw [hti, hins]; rfl) (hkeep s t hc hs ht) h

theorem not_writes_of_readsOnly {c : PortCycle} (h : ReadsOnly c) (idx : BitVec 3) : ¬ Writes c idx :=
  fun ⟨hs, hw, _⟩ => Bool.false_ne_true ((h.2 hs).symm.trans hw)

/-- A cycle that only reads does not clear an error bit. -/
theorem error_kept_of_readsOnly {T : CipherTables} (s t : State) (hc : ReadsOnly (nextCycle s))
    (hs : s.errCmd = true ∨ s.errBusy = true) (h : stepWith T s = .next t) : t.errCmd = true ∨ t.errBusy = true := by
  obtain ⟨hcmd, hbusy⟩ := errorBitsAreSetByTheirCauseAndSticky T s t h hc.1
  have hn := not_writes_of_readsOnly hc 1#3
  exact hs.imp (fun he => hcmd.2 (.inr ⟨he, fun hw => hn hw.1⟩)) fun he => hbusy.2 (.inr ⟨he, fun hw => hn hw.1⟩)

/-- The access of a cycle that only reads puts at most a value on `rdata`. -/
theorem portEffect_of_readsOnly {c : PortCycle} (s : State) (h : ReadsOnly c) :
    ∃ rd, portEffect c s = { s with rdata := rd } := by
  cases hs : c.sel with
  | false => exact ⟨s.rdata, portEffect_of_no_access s hs⟩
  | true => exact ⟨_, portEffect_of_read s hs (h.2 hs)⟩

/-- A cycle that only reads takes a command one core step nearer to its result, and an ended one it leaves alone. -/
theorem resultIn_kept_of_readsOnly {T : CipherTables} {y : Block} (s t : State) (hc : ReadsOnly (nextCycle s))
    (hs : ∃ n, ResultIn T y n s) (h : stepWith T s = .next t) : ∃ n, ResultIn T y n t := by
  obtain ⟨rd, he⟩ := portEffect_of_readsOnly (openCycle s) hc
  obtain ⟨n, hn⟩ := hs
  have hopen : ResultIn T y n (portEffect (nextCycle s) (openCycle s)) := by
    rw [he]
    exact hn.port s.ie s.done s.errCmd s.errBusy rd s.inputs.tail
  cases n with
  | zero => exact ⟨0, stepWith_of_idle h hc.1 hn.1 ▸ hopen⟩
  | succ n =>
    obtain ⟨-, t', hc', ht'⟩ := hopen
    rw [stepWith_eq_coreStep_portEffect T hc.1 hn.1, hc'] at h
    cases h
    exact ⟨n, ht'⟩

/-- Every legal command has a result. -/
theorem exists_commandResult {op : Opcode} {r : BitVec 3} {i : Instr} (hc : commandOf op r = some i) (T : CipherTables)
    (s : State) : ∃ y, commandResult T i s = some y := by
  have round : ∀ (out : RoundIndex → Block), roundFieldLegal r = true → ∃ y, (RoundIndex.ofBits r).map out = some y :=
    fun out hl => Option.isSome_iff_exists.1 (by rw [Option.isSome_map, roundIndex_ofBits_isSome, hl])
  cases op
  case rkey =>
    obtain ⟨hl, rfl⟩ : _ ∧ Instr.rkey r = i := by simpa [commandOf] using hc
    exact round _ hl
  case kxor =>
    obtain ⟨hl, rfl⟩ : _ ∧ Instr.kxor r = i := by simpa [commandOf] using hc
    exact round _ hl
  all_goals
    obtain ⟨-, rfl⟩ : r = 0#3 ∧ _ = i := by simpa [commandOf] using hc
    exact ⟨_, rfl⟩

/-- A word written to CMD is accepted, or the cycle leaves an error bit at 1 (R120). -/
theorem accepts_of_no_error {T : CipherTables} {s t : State} (h : stepWith T s = .next t) (hr : (nextCycle s).rst = false)
    (hw : Writes (nextCycle s) 2#3) (hno : ¬ (t.errCmd = true ∨ t.errBusy = true)) : Accepts s (nextCycle s) := by
  obtain ⟨hcmd, hbusy⟩ := errorBitsAreSetByTheirCauseAndSticky T s t h hr
  have hb : s.busy = false := Bool.eq_false_iff.2 fun hb => hno (.inr (hbusy.2 (.inl ⟨hb, .inl hw⟩)))
  refine ⟨hb, hw, ?_⟩
  by_contra hl
  exact hno (.inl (hcmd.2 (.inl ⟨hb, hw, Bool.eq_false_iff.2 hl⟩)))

theorem portEffect_of_accepts {c : PortCycle} {s : State} (h : Accepts s c) : portEffect c s = accept c.wdata s := by
  obtain ⟨hb, ⟨hs, hw, ha⟩, hl⟩ := h
  rw [portEffect, if_pos hs, if_pos hw, ha]
  exact command_legal hb hl

/-- The cycle that accepts a command fixes its result from the registers it finds (R131). -/
theorem resultIn_of_accepts {T : CipherTables} {s t : State} (h : stepWith T s = .next t) (hr : (nextCycle s).rst = false)
    (ha : Accepts s (nextCycle s)) :
    ∃ i y, decodeCommand (nextCycle s).wdata = .ok i ∧ commandResult T i s = some y ∧ ∃ n, ResultIn T y n t := by
  have ht : t = accept (nextCycle s).wdata (openCycle s) :=
    (stepWith_of_idle h hr ha.1).trans (portEffect_of_accepts (s := openCycle s) ha)
  obtain ⟨-, -, hl⟩ := ha
  obtain ⟨i, hi⟩ := (legal_iff_decodes _).1 hl
  obtain ⟨op, hv, hc⟩ := decodeCommand_eq_ok hi
  obtain ⟨y, hy⟩ := exists_commandResult hc T s
  refine ⟨i, y, hi, hy, latency op, ?_⟩
  rw [ht, hv]
  exact (resultIn_accept hc hy).port s.ie false s.errCmd s.errBusy none s.inputs.tail

/-- Settles O46: a word that is turned away sets an error bit, which cycles that only read do not clear; an accepted one is a legal
command whose result such cycles bring to DOUT. -/
theorem completionProtocolGivesTheResult : Obligations.CompletionProtocolGivesTheResult := by
  intro T s u v cs _ _ _ hcs hrun hub hucmd hubusy
  have hrst : (nextCycle { s with inputs := writeCycle 2#3 v :: cs }).rst = false := rfl
  cases ht : stepWith T { s with inputs := writeCycle 2#3 v :: cs } with
  | fault e => rw [runWith, ht] at hrun; cases hrun
  | refused e => rw [runWith, ht] at hrun; cases hrun
  | next t =>
    rw [runWith_succ T _ ht] at hrun
    obtain ⟨-, hins⟩ := stepWith_port ht hrst
    have hno : ¬ (t.errCmd = true ∨ t.errBusy = true) := fun he => by
      simpa [hucmd, hubusy] using runWith_keeps (fun _ => And.left) error_kept_of_readsOnly hcs hins he hrun
    obtain ⟨i, y, hi, hy, hres⟩ := resultIn_of_accepts ht hrst (accepts_of_no_error ht hrst ⟨rfl, rfl, rfl⟩ hno)
    obtain ⟨n, hn⟩ := runWith_keeps (fun _ => And.left) resultIn_kept_of_readsOnly hcs hins hres hrun
    refine ⟨i, y, hi, (commandResult_inputs T i s _).symm.trans hy, ?_⟩
    cases n with
    | zero => exact congrArg (BitVec.setWidth 32) hn.2
    | succ n =>
      obtain ⟨hb, -⟩ := hn
      exact absurd (hb.symm.trans hub) (by decide)

end Sys2Proof.Proofs
end

section
/-!
PROOFS of the statements about the encodings: command words and the commands they stand for, the bytes of each format, the round
trips through decoder and encoder, and the opcode-table words a host presents on the port.
-/
open Sys2Proof.Machine Sys2Proof.Laws

namespace Sys2Proof.Proofs

/-! ### Commands and their words -/

/-- An instruction with a command word is the command of an opcode with an RND field that opcode takes (R72, R77). -/
theorem commandOf_of_commandWord {i : Instr} {v : Word} (h : commandWord i = some v) :
    ∃ op r, v = cmdword op r ∧ commandOf op r = some i := by
  cases i
  case rkey r =>
    obtain ⟨hr, rfl⟩ : roundFieldLegal r = true ∧ cmdword .rkey r = v := by simpa [commandWord] using h
    exact ⟨.rkey, r, rfl, if_pos hr⟩
  case kxor r =>
    obtain ⟨hr, rfl⟩ : roundFieldLegal r = true ∧ cmdword .kxor r = v := by simpa [commandWord] using h
    exact ⟨.kxor, r, rfl, if_pos hr⟩
  case busread | buswrite => cases h
  all_goals
    obtain rfl := Option.some_inj.1 h
    exact ⟨_, 0, rfl, rfl⟩

/-- The decoder of command words reads a command exactly from that command's word. -/
theorem decodeCommand_eq_ok_iff {v : Word} {i : Instr} : decodeCommand v = .ok i ↔ commandWord i = some v := by
  constructor
  · intro h
    obtain ⟨op, hv, hc⟩ := decodeCommand_eq_ok h
    rw [commandWord_of_commandOf hc, ← hv]
  · intro h
    obtain ⟨op, r, rfl, hc⟩ := commandOf_of_commandWord h
    exact decodeCommand_cmdword op r hc

/-- The well-formed instructions are the commands with a word, and the two host accesses. -/
theorem wellFormed_iff (i : Instr) : i.wellFormed = true ↔
    (∃ v, commandWord i = some v) ∨ (∃ idx, i = .busread idx) ∨ ∃ idx v, i = .buswrite idx v := by
  cases i <;> simp [Instr.wellFormed, commandWord]

theorem encode_of_commandWord {i : Instr} {v : Word} (h : commandWord i = some v) : encode i = wordBytes v := by
  cases i
  case busread | buswrite => cases h
  case rkey | kxor =>
    rw [commandWord] at h
    split_ifs at h
    obtain rfl := Option.some_inj.1 h
    rfl
  all_goals
    obtain rfl := Option.some_inj.1 h
    rfl

/-! ### The bytes of each format -/

theorem readFrame_of_fields {b : Byte} : b.extractLsb' 4 4 = 0#4 → b.getLsbD 3 = false → readFrame (b.extractLsb' 0 3) = b := by
  revert b
  decide

/-- What the decoder reads from one byte is the read access whose frame that byte is (R80). -/
theorem decodeRead_eq_ok {b : Byte} {i : Instr} (h : decodeRead b = .ok i) :
    i = .busread (b.extractLsb' 0 3) ∧ readFrame (b.extractLsb' 0 3) = b := by
  unfold decodeRead at h
  split_ifs at h with hpad hwe
  cases h
  exact ⟨rfl, readFrame_of_fields hpad (Bool.eq_false_iff.2 hwe)⟩

theorem writeFrame_of_fields {x : BitVec 40} (hpad : x.extractLsb' 36 4 = 0#4) (hwe : x.getLsbD 35 = true) :
    writeFrame (x.extractLsb' 32 3) (x.extractLsb' 0 32) = x := by
  have hbit : x.extractLsb' 35 1 = 1#1 := by
    refine BitVec.eq_of_getLsbD_eq fun i hi => ?_
    obtain rfl : i = 0 := by omega
    simpa using hwe
  calc writeFrame (x.extractLsb' 32 3) (x.extractLsb' 0 32)
      = x.extractLsb' 36 4 ++ x.extractLsb' 35 1 ++ x.extractLsb' 32 3 ++ x.extractLsb' 0 32 := by rw [hpad, hbit]; rfl
    _ = x := by
      rw [BitVec.extractLsb'_append_extractLsb'_eq_extractLsb' (by decide),
        BitVec.extractLsb'_append_extractLsb'_eq_extractLsb' (by decide),
        BitVec.extractLsb'_append_extractLsb'_eq_extractLsb' (by decide)]
      exact BitVec.extractLsb'_eq_self

/-- What the decoder reads from five bytes is the write access whose frame they hold (R80). -/
theorem decodeWrite_eq_ok {x : BitVec 40} {i : Instr} (h : decodeWrite x = .ok i) :
    i = .buswrite (x.extractLsb' 32 3) (x.extractLsb' 0 32) ∧ writeFrame (x.extractLsb' 32 3) (x.extractLsb' 0 32) = x := by
  unfold decodeWrite at h
  split_ifs at h with hpad hwe
  cases h
  exact ⟨rfl, writeFrame_of_fields hpad hwe⟩

/-- The five bytes of a frame of 40 bits, bits 7:0 first (log 8). -/
def frameBytes (x : BitVec 40) : List Byte :=
  [x.extractLsb' 0 8, x.extractLsb' 8 8, x.extractLsb' 16 8, x.extractLsb' 24 8, x.extractLsb' 32 8]

theorem writeBytes_eq (idx : BitVec 3) (v : Word) : writeBytes idx v = frameBytes (writeFrame idx v) := rfl

theorem decode_frameBytes (x : BitVec 40) : decode (frameBytes x) = decodeWrite x :=
  congrArg decodeWrite (joinBytes x)

/-! In the two lemmas on appended bytes, the width stays the sum of the bytes' widths (`-Nat.reduceAdd`): the library's lemmas on
fields of an append are stated for a sum. -/

theorem wordBytes_append (b3 b2 b1 b0 : Byte) : wordBytes (b3 ++ b2 ++ b1 ++ b0) = [b0, b1, b2, b3] := by
  simp [-Nat.reduceAdd, wordBytes, BitVec.extractLsb'_append_eq_of_le, BitVec.extractLsb'_append_eq_of_add_le]

theorem frameBytes_append (b4 b3 b2 b1 b0 : Byte) : frameBytes (b4 ++ b3 ++ b2 ++ b1 ++ b0) = [b0, b1, b2, b3, b4] := by
  simp [-Nat.reduceAdd, frameBytes, BitVec.extractLsb'_append_eq_of_le, BitVec.extractLsb'_append_eq_of_add_le]

/-- The bytes the decoder accepts are those of a command word, of a read frame or of a write frame (R70, R80). -/
theorem decode_eq_ok {bs : List Byte} {i : Instr} (h : decode bs = .ok i) :
    (∃ v, commandWord i = some v ∧ bs = wordBytes v) ∨ (∃ idx, i = .busread idx ∧ bs = [readFrame idx]) ∨
      ∃ idx v, i = .buswrite idx v ∧ bs = writeBytes idx v := by
  unfold decode at h
  split at h
  · obtain ⟨rfl, hb⟩ := decodeRead_eq_ok h
    exact .inr (.inl ⟨_, rfl, by rw [hb]⟩)
  · exact .inl ⟨_, decodeCommand_eq_ok_iff.1 h, (wordBytes_append _ _ _ _).symm⟩
  · obtain ⟨rfl, hx⟩ := decodeWrite_eq_ok h
    exact .inr (.inr ⟨_, _, rfl, by rw [writeBytes_eq, hx, frameBytes_append]⟩)
  · cases h

/-! ### The round trips -/

/-- Settles O6: a command's bytes are those of its word, and each access's bytes are its frame's. -/
theorem decodeOfEncode : Obligations.DecodeOfEncode := by
  intro i h
  rcases (wellFormed_iff i).1 h with ⟨v, hv⟩ | ⟨idx, rfl⟩ | ⟨idx, v, rfl⟩
  · rw [encode_of_commandWord hv, decode_wordBytes, decodeCommand_eq_ok_iff.2 hv]
  · exact decode_readFrame idx
  · exact decode_writeBytes idx v

/-- Settles O7: accepted bytes are a command word's or a frame's, and the encoder writes the same. -/
theorem encodeOfDecode : Obligations.EncodeOfDecode := by
  intro bs i h
  rw [wellFormed_iff]
  rcases decode_eq_ok h with ⟨v, hv, rfl⟩ | ⟨idx, rfl, rfl⟩ | ⟨idx, v, rfl, rfl⟩
  · exact ⟨.inl ⟨v, hv⟩, encode_of_commandWord hv⟩
  · exact ⟨.inr (.inl ⟨idx, rfl⟩), rfl⟩
  · exact ⟨.inr (.inr ⟨idx, v, rfl⟩), rfl⟩

/-- Settles O3, by evaluating the decoder on the ten words. -/
theorem spelledOutWordsDecode : Obligations.SpelledOutWordsDecode := by
  unfold Obligations.SpelledOutWordsDecode
  decide

/-! ### The legal words -/

/-- Settles O5: a legal word has a command, and the command read has that word. -/
theorem commandDecodesExactlyWhenLegal : Obligations.CommandDecodesExactlyWhenLegal := fun v =>
  ⟨legal_iff_decodes v, fun _ => decodeCommand_eq_ok_iff.1⟩

/-- The predicate of R74 in the fields of the word. -/
theorem legal_iff_fields (v : Word) : legal v = true ↔ resField v = 0 ∧
    ((opField v ∈ [0x0#4, 0x1#4, 0x4#4, 0x5#4, 0x6#4, 0x7#4] ∧ rndField v = 0) ∨
      (opField v ∈ [0x2#4, 0x3#4] ∧ 1 ≤ (rndField v).toNat ∧ (rndField v).toNat ≤ 5)) := by
  simp only [legal, roundFieldLegal, Bool.and_eq_true, Bool.or_eq_true, beq_iff_eq, List.contains_iff_mem, decide_eq_true_eq]

/-- The 16 legal command words, each with the command it stands for, as R74 lists them. -/
def listedCommands : List (Word × Instr) :=
  [(0x00000000#32, .nop), (0x00000001#32, .enc), (0x00000012#32, .rkey 1#3), (0x00000022#32, .rkey 2#3),
    (0x00000032#32, .rkey 3#3), (0x00000042#32, .rkey 4#3), (0x00000052#32, .rkey 5#3), (0x00000013#32, .kxor 1#3),
    (0x00000023#32, .kxor 2#3), (0x00000033#32, .kxor 3#3), (0x00000043#32, .kxor 4#3), (0x00000053#32, .kxor 5#3),
    (0x00000004#32, .sub), (0x00000005#32, .isub), (0x00000006#32, .perm), (0x00000007#32, .iperm)]

theorem mem_listedCommands {op : Opcode} {r : BitVec 3} :
    ∀ i ∈ commandOf op r, (cmdword op r, i) ∈ listedCommands := by
  revert r
  cases op <;> decide

/-- Settles O4: every opcode with an RND field it takes makes one of the listed words. -/
theorem legalWordsAreTheSixteenListed : Obligations.LegalWordsAreTheSixteenListed := by
  intro v
  refine ⟨legal_iff_fields v, fun h => ?_, fun ⟨i, hi, _⟩ => (legal_iff_decodes v).2 ⟨i, hi⟩⟩
  obtain ⟨i, hi⟩ := (legal_iff_decodes v).1 h
  obtain ⟨op, r, rfl, hc⟩ := commandOf_of_commandWord (decodeCommand_eq_ok_iff.1 hi)
  exact ⟨i, hi, mem_listedCommands i hc⟩

/-! ### Command mnemonics -/

/-- Settles O8: both are `Command(v)` of R120. -/
theorem mnemonicStandsForCmdWrite : Obligations.MnemonicStandsForCmdWrite := fun _ v s h =>
  (exec_of_commandWord h s).trans (exec_write_cmd v s).symm

/-- Settles O21: with such an RND field the opcode makes no command, so its word is illegal. -/
theorem roundOutsideOneToFiveSetsErrCmd : Obligations.RoundOutsideOneToFiveSetsErrCmd := by
  intro s r hr
  have hrkey : legal (cmdword .rkey r) = false := by simp [legal_cmdword, commandOf, hr]
  have hkxor : legal (cmdword .kxor r) = false := by simp [legal_cmdword, commandOf, hr]
  exact ⟨fun hb => ⟨congrArg _ (command_illegal hb hrkey), congrArg _ (command_illegal hb hkxor)⟩,
    fun hb => ⟨congrArg _ (command_busy _ hb), congrArg _ (command_busy _ hb)⟩⟩

end Sys2Proof.Proofs
end

section
/-!
PROOFS of the statements about table words, the assembler and the polling host: an opcode-table word is the access it makes on the
port; a mnemonic's operand is its RND field; and `wait` takes one cycle for each core step left and one more that sees BUSY at 0.
-/
open Sys2Proof.Machine Sys2Proof.Laws

namespace Sys2Proof.Proofs

/-! ### Opcode-table words -/

/-- A field of a number's bits is the number shifted down, cut to the field's width. -/
theorem extractLsb'_ofNat {n start len : Nat} (h : start + len ≤ n) (w : Nat) :
    (BitVec.ofNat n w).extractLsb' start len = BitVec.ofNat len (w / 2 ^ start) := by
  refine BitVec.eq_of_getLsbD_eq fun i hi => ?_
  rw [BitVec.getLsbD_extractLsb', BitVec.getLsbD_ofNat, BitVec.getLsbD_ofNat, Nat.testBit_div_two_pow, Nat.add_comm i]
  simp [hi, show start + i < n by omega]

theorem bytesOfNat_four (w : Nat) : bytesOfNat 4 w = wordBytes (BitVec.ofNat 32 w) := by
  simp [bytesOfNat, wordBytes, extractLsb'_ofNat, Nat.div_div_eq_div_mul]

theorem bytesOfNat_five (w : Nat) : bytesOfNat 5 w = frameBytes (BitVec.ofNat 40 w) := by
  simp [bytesOfNat, frameBytes, extractLsb'_ofNat, Nat.div_div_eq_div_mul]

theorem decode_of_decodeTableWord {nbits w : Nat} {i : Instr} (h : decodeTableWord nbits w = some i) :
    decode (bytesOfNat (formatBytes nbits) w) = .ok i := by
  unfold decodeTableWord at h
  split_ifs at h
  split at h
  · rename_i hd
    rw [hd, Option.some_inj.1 h]
  · cases h

theorem formatBytes_cases (nbits : Nat) : formatBytes nbits = 1 ∨ formatBytes nbits = 4 ∨ formatBytes nbits = 5 := by
  unfold formatBytes
  split_ifs
  · exact .inl rfl
  · exact .inr (.inl rfl)
  · exact .inr (.inr rfl)

theorem cycleOfTableWord_rst (nbits w : Nat) : (cycleOfTableWord nbits w).rst = false := by
  unfold cycleOfTableWord
  split <;> rfl

/-- A table word does as an instruction what its cycle does on the port: a read and a write name their index and data in the word's
fields, and a command is the write of its word to CMD (R76, R80). -/
theorem exec_of_tableWord {nbits w : Nat} {i : Instr} (h : decodeTableWord nbits w = some i) (s : State) :
    exec i s = .next (portEffect (cycleOfTableWord nbits w) s) := by
  have hd := decode_of_decodeTableWord h
  rcases formatBytes_cases nbits with hf | hf | hf
  all_goals
    rw [hf] at hd
    simp only [cycleOfTableWord, hf]
  · obtain ⟨rfl, -⟩ := decodeRead_eq_ok hd
    rw [extractLsb'_ofNat (by decide), exec_busread, portEffect_of_read s rfl rfl]
    simp
  · rw [bytesOfNat_four, decode_wordBytes, decodeCommand_eq_ok_iff] at hd
    exact exec_of_commandWord hd s
  · rw [bytesOfNat_five, decode_frameBytes] at hd
    obtain ⟨rfl, -⟩ := decodeWrite_eq_ok hd
    rw [extractLsb'_ofNat (by decide), extractLsb'_ofNat (by decide), exec_buswrite]
    simp [portEffect]

/-- Settles O10: the word's cycle is the next one, and while idle a cycle is its access alone. -/
theorem withFetchWordRunsTheTableInstruction : Obligations.WithFetchWordRunsTheTableInstruction := by
  intro s nbits w i h hb
  have hnext : nextCycle (s.withFetchWord nbits w) = cycleOfTableWord nbits w := rfl
  have hopen : openCycle (s.withFetchWord nbits w) = { s with rdata := none } := rfl
  rw [exec_of_tableWord h, ← hnext, ← hopen]
  exact stepWith_idle _ (hnext ▸ cycleOfTableWord_rst nbits w) hb

/-! ### The assembler -/

/-- The operands an opcode takes: a round index in 1..5, or none, which is r = 0 (R72, R78). -/
theorem commandOf_isSome_iff (op : Opcode) {r : Nat} (h : r < 8) : (commandOf op (BitVec.ofNat 3 r)).isSome = true ↔
    if op = .rkey ∨ op = .kxor then 1 ≤ r ∧ r ≤ 5 else r = 0 := by
  have hr : (BitVec.ofNat 3 r).toNat = r := Nat.mod_eq_of_lt h
  have hzero : BitVec.ofNat 3 r = 0#3 ↔ r = 0 := by rw [← BitVec.toNat_inj, hr]; rfl
  cases op
  case rkey | kxor => simp [commandOf, roundFieldLegal, Nat.mod_eq_of_lt h]
  all_goals simp [commandOf, hzero]

/-- The command word as the number of R77. -/
theorem cmdword_ofNat (op : Opcode) {r : Nat} (h : r < 8) :
    cmdword op (BitVec.ofNat 3 r) = BitVec.ofNat 32 (r <<< 4 ||| op.toBits.toNat) := by
  apply BitVec.eq_of_toNat_eq
  rw [cmdword, BitVec.toNat_setWidth, BitVec.toNat_append, BitVec.toNat_ofNat, BitVec.toNat_ofNat, Nat.mod_eq_of_lt h]

/-- Settles O58: from 8 on r is no RND field, and below 8 the opcode decides. -/
theorem assemblerTakesExactlyTheLegalOperands : Obligations.AssemblerTakesExactlyTheLegalOperands := by
  intro op r
  rw [assembleCommand]
  by_cases hr : r < 8
  · rw [if_pos hr, cmdword_ofNat op hr]
    simp only [← commandOf_isSome_iff op hr]
    cases commandOf op (BitVec.ofNat 3 r) <;> rfl
  · rw [if_neg hr, if_neg]
    split_ifs <;> omega

/-- Settles O60: the lines with a command are the assembler's, and the others are R79's table. -/
theorem linesExpandAsListed : Obligations.LinesExpandAsListed := by
  refine ⟨fun _ _ => rfl, fun _ _ => rfl, fun _ _ => rfl, rfl, rfl, fun _ => rfl, rfl, fun k p y => rfl, fun k r name => ?_⟩
  have htakes : assembleCommand .rkey r =
      if 1 ≤ r ∧ r ≤ 5 then some [.write .cmd (.lit (BitVec.ofNat 32 (r <<< 4 ||| 0x2)))] else none :=
    assemblerTakesExactlyTheLegalOperands .rkey r
  rw [expandLine, htakes]
  split_ifs <;> rfl

/-! ### Polling -/

theorem stepsLeft_idle {s : State} (h : s.busy = false) : stepsLeft s = 0 := by
  simp [stepsLeft, h]

/-- With the invariants a command in progress has a core step left. -/
theorem stepsLeft_pos {s : State} (hs : StateInv s) (hb : s.busy = true) : 0 < stepsLeft s := by
  obtain ⟨-, henc, -⟩ := hs
  rw [stepsLeft, if_pos hb]
  split_ifs with he
  · have := henc hb he
    omega
  · exact Nat.one_pos

/-- From a state with the invariants every cycle goes on, with any tables. -/
theorem stepWith_next_of_inv (T : CipherTables) {s : State} (h : StateInv s) : ∃ t, stepWith T s = .next t := by
  cases hr : (nextCycle s).rst with
  | true => exact ⟨_, stepWith_reset T hr⟩
  | false =>
    obtain ⟨core, hc⟩ := coreStep_next_of_inv T (s := openCycle s) h
    exact ⟨_, by rw [stepWith_busy T hr, hc]⟩

/-- A cycle with a command in progress takes one of the core steps left. -/
theorem stepsLeft_of_cycle {T : CipherTables} {s t : State} (h : stepWith T s = .next t) (hr : (nextCycle s).rst = false)
    (hb : s.busy = true) : stepsLeft s = stepsLeft t + 1 := by
  rcases stepWith_control_cases h hr with ⟨ha, -⟩ | ⟨-, hopc, -, ⟨hf, -⟩ | ⟨-, htb, -, hlast⟩ | ⟨-, htb, he, h1, h3, hrcnt⟩⟩
  · exact absurd ha (not_accepts_of_busy hb)
  · exact absurd (hf.symm.trans hb) Bool.false_ne_true
  · rw [stepsLeft_idle htb, stepsLeft, if_pos hb]
    split_ifs with he
    · rw [hlast he]
    · rfl
  · have hnum : t.rcnt.toNat = s.rcnt.toNat + 1 := by rw [hrcnt]; bv_omega
    simp only [stepsLeft, hb, htb, hopc, he, if_true]
    omega

/-- One poll: the host reads the STATUS word of the state before the edge, and goes on polling if BUSY was 1 in it. -/
theorem hostCycle_poll {T : CipherTables} {s t : State} (env : List (String × Word))
    (h : stepWith T { s with inputs := [statusPoll] } = .next t) :
    hostCycle T ⟨[.poll], env, s⟩ = .next ⟨if s.busy then [.poll] else [], ("s", statusWord s) :: env, t⟩ := by
  obtain ⟨hread, -⟩ := rdataShowsTheRegisterBeforeTheEdge T _ t rfl h
  have hrd : t.rdata = some (statusWord s) := hread rfl rfl
  have hcycle : hostCycle T ⟨[.poll], env, s⟩ = .next ⟨programAfter .poll t.rdata [], bindAfter .poll t.rdata env, t⟩ := by
    rw [statusPoll] at h
    simp only [hostCycle, cycleOfOp, h]
  rw [hcycle, hrd, programAfter, bindAfter, Option.getD_some, statusWord_getLsbD]

theorem hostRun_succ {T : CipherTables} {h h' : HostRun} (hc : hostCycle T h = .next h') (n : Nat) :
    hostRun T (n + 1) h = hostRun T n h' := by
  rw [hostRun, hc]

/-- Settles O59, by induction on the core steps left: a poll with a command in progress takes one of them and sees BUSY at 1; the poll
after the last sees it at 0, and an idle core that is only read stays idle. -/
theorem waitEndsWhenBusyIsSeenAtZero : Obligations.WaitEndsWhenBusyIsSeenAtZero := by
  intro T s env hs
  generalize hk : stepsLeft s = k
  induction k generalizing s env with
  | zero =>
    have hb : s.busy = false := Bool.eq_false_iff.2 fun hb => (stepsLeft_pos hs hb).ne' hk
    obtain ⟨t, ht⟩ := stepWith_next_of_inv T (s := { s with inputs := [statusPoll] }) hs
    have hpoll := hostCycle_poll env ht
    rw [hb] at hpoll
    refine ⟨fun n hn => ?_, _, hostRun_succ hpoll 0, rfl, ?_⟩
    · obtain rfl := Nat.le_zero.1 hn
      exact ⟨_, rfl, rfl⟩
    · show t.busy = false
      rw [stepWith_of_idle ht rfl hb, portEffect_of_read _ rfl rfl]
      exact hb
  | succ k ih =>
    have hb : s.busy = true := by
      by_contra hb
      rw [stepsLeft_idle (Bool.eq_false_iff.2 hb)] at hk
      omega
    obtain ⟨t, ht⟩ := stepWith_next_of_inv T (s := { s with inputs := [statusPoll] }) hs
    have hleft : stepsLeft t = k := by
      have hstep : stepsLeft s = stepsLeft t + 1 := stepsLeft_of_cycle (s := { s with inputs := [statusPoll] }) ht rfl hb
      omega
    have hpoll := hostCycle_poll env ht
    rw [hb] at hpoll
    obtain ⟨hpolling, hended⟩ := ih t _ (stepWith_keeps_inv (s := { s with inputs := [statusPoll] }) hs ht) hleft
    refine ⟨fun n hn => ?_, ?_⟩
    · cases n with
      | zero => exact ⟨_, rfl, rfl⟩
      | succ n =>
        rw [hostRun_succ hpoll]
        exact hpolling n (by omega)
    · rw [hostRun_succ hpoll]
      exact hended

end Sys2Proof.Proofs
end

section
/-!
PROOFS of the statements about single-layer commands and about the independence of control from data. The single-layer commands share
one proof, by opcode and result. For independence, the access and the core step each keep two states the same in control: the access
by its closed form, the core step because control alone says whether it goes on and what it makes of BUSY, DONE and RCNT.
-/
open Sys2Proof.Machine Sys2Proof.Laws

namespace Sys2Proof.Proofs

/-! ### Single-layer commands -/

section
variable {T : CipherTables} {s t : State}

/-- Accepting any command but ENC loads the latches and leaves ST and RCNT to no round (R121). -/
theorem accept_cmdword {op : Opcode} (hne : op ≠ .enc) (r : BitVec 3) (s : State) :
    accept (cmdword op r) s = accepted s op.toBits r := by
  simp [accept, accepted, toBits_injective.eq_iff, hne]

theorem exec_accepted {op : Opcode} {r : BitVec 3} {i : Instr} (hne : op ≠ .enc) (hc : commandOf op r = some i)
    (hb : s.busy = false) : exec i s = .next (accepted s op.toBits r) := by
  rw [exec_of_commandWord (commandWord_of_commandOf hc), command_legal hb (by simp [legal_cmdword, hc]), accept_cmdword hne]

/-- A core step that completes the command in progress does so at the next edge, beside any access of that cycle. -/
theorem completesAtNextEdge_of_coreStep {out : Block} (hb : t.busy = true)
    (hc : ∀ ins, coreStep T { t with inputs := ins } = .next (complete out { t with inputs := ins })) :
    CompletesAtNextEdge T t out := by
  intro c rest hr
  obtain ⟨ie, d, ec, eb, rd, hstep, hdone⟩ := stepWith_busy_next T (s := { t with inputs := c :: rest }) hr hb (hc _)
  exact ⟨_, hstep, rfl, rfl, hdone rfl, rfl, rfl, rfl, rfl, rfl, rfl, rfl⟩

/-- The next edge after the acceptance of a single-layer command leaves that command's result in DOUT (R123). -/
theorem accepted_completesAtNextEdge {op : Opcode} {r : BitVec 3} {i : Instr} {y : Block} (hne : op ≠ .enc)
    (hc : commandOf op r = some i) (hy : commandResult T i s = some y) :
    CompletesAtNextEdge T (accepted s op.toBits r) y := by
  refine completesAtNextEdge_of_coreStep rfl fun ins => ?_
  have hresult : commandResult T i { accepted s op.toBits r with inputs := ins } = some y := by
    rw [commandResult_inputs, ← accept_cmdword hne, commandResult_accept, hy]
  exact (coreStep_of_opcode T rfl (by decide : (0#3).toNat ≤ 4) (ofBits_toBits op)).trans (coreStepOf_single hne hc hresult)

/-- A single-layer command is accepted while idle, and the next edge completes it with its result. -/
theorem singleLayer_accepted_completes {op : Opcode} {r : BitVec 3} {i : Instr} {y : Block} (hne : op ≠ .enc)
    (hc : commandOf op r = some i) (hy : commandResult T i s = some y) (hb : s.busy = false) :
    exec i s = .next (accepted s op.toBits r) ∧ CompletesAtNextEdge T (accepted s op.toBits r) y :=
  ⟨exec_accepted hne hc hb, accepted_completesAtNextEdge hne hc hy⟩

end

/-- A field with the number of a round index holds that round index (R72). -/
theorem roundIndex_ofBits_of_toNat {r : BitVec 3} {n : RoundIndex} : r.toNat = roundNumber n → RoundIndex.ofBits r = some n := by
  revert r; cases n <;> decide

theorem roundFieldLegal_of_toNat {r : BitVec 3} {n : RoundIndex} (h : r.toNat = roundNumber n) : roundFieldLegal r = true := by
  rw [← roundIndex_ofBits_isSome, roundIndex_ofBits_of_toNat h]
  rfl

/-- Settles O19: RKEY's result is the round key of the index its operand holds. -/
theorem rkeyWritesTheRoundKey : Obligations.RkeyWritesTheRoundKey := by
  intro T s r n hb hr
  exact singleLayer_accepted_completes (op := .rkey) (by decide) (if_pos (roundFieldLegal_of_toNat hr))
    (congrArg (Option.map _) (roundIndex_ofBits_of_toNat hr)) hb

/-- Settles O20: KXOR's result is KeyMix of DIN with the round key of the index its operand holds. -/
theorem kxorWritesDinXorRoundKey : Obligations.KxorWritesDinXorRoundKey := by
  intro T s r n hb hr
  exact singleLayer_accepted_completes (op := .kxor) (by decide) (if_pos (roundFieldLegal_of_toNat hr))
    (congrArg (Option.map _) (roundIndex_ofBits_of_toNat hr)) hb

/-- Settles O22, as a single-layer command without operand. -/
theorem subWritesSubstituteOfDin : Obligations.SubWritesSubstituteOfDin := fun _ _ hb =>
  singleLayer_accepted_completes (op := .sub) (by decide) rfl rfl hb

/-- Settles O23, as a single-layer command without operand. -/
theorem isubWritesInvSubstituteOfDin : Obligations.IsubWritesInvSubstituteOfDin := fun _ _ hb =>
  singleLayer_accepted_completes (op := .isub) (by decide) rfl rfl hb

/-- Settles O24, as a single-layer command without operand. -/
theorem permWritesPermuteOfDin : Obligations.PermWritesPermuteOfDin := fun _ _ hb =>
  singleLayer_accepted_completes (op := .perm) (by decide) rfl rfl hb

/-- Settles O25, as a single-layer command without operand. -/
theorem ipermWritesInvPermuteOfDin : Obligations.IpermWritesInvPermuteOfDin := fun _ _ hb =>
  singleLayer_accepted_completes (op := .iperm) (by decide) rfl rfl hb

/-! ### Control is independent of data -/

section
variable {T T' : CipherTables} {s t core : State} {c d : PortCycle}

theorem sameButOperands_refl (c : PortCycle) : SameButOperands c c := ⟨rfl, rfl, rfl, rfl, .inl rfl⟩

/-- Two states the same in control present cycles that differ at most in operand data, also at the end of the host's list. -/
theorem sameButOperands_nextCycle (h : SameControl s t) : SameButOperands (nextCycle s) (nextCycle t) := by
  obtain ⟨-, -, -, -, -, -, -, -, hins⟩ := h
  unfold nextCycle
  generalize s.inputs = cs, t.inputs = ds at hins
  cases hins with
  | nil => exact sameButOperands_refl _
  | cons hc _ => exact hc

theorem sameButOperands_inputs_tail (h : SameControl s t) :
    List.Forall₂ SameButOperands s.inputs.tail t.inputs.tail := by
  obtain ⟨-, -, -, -, -, -, -, -, hins⟩ := h
  generalize s.inputs = cs, t.inputs = ds at hins
  cases hins with
  | nil => exact .nil
  | cons _ hrest => exact hrest

theorem sameControl_openCycle (h : SameControl s t) : SameControl (openCycle s) (openCycle t) := by
  have htail := sameButOperands_inputs_tail h
  obtain ⟨hie, hb, hd, hec, heb, hr, hopc, hrsel, -⟩ := h
  exact ⟨hie, hb, hd, hec, heb, hr, hopc, hrsel, htail⟩

theorem irq_of_sameControl (h : SameControl s t) : irq s = irq t := by
  obtain ⟨hie, -, hd, hec, heb, -⟩ := h
  rw [irq, irq, hie, hd, hec, heb]

/-- Cycles that differ at most in operand data are equal, or name KEY or DIN. -/
theorem eq_or_operand_of_sameButOperands (h : SameButOperands c d) : c = d ∨ c.addr = 3#3 ∨ c.addr = 4#3 := by
  obtain ⟨hrst, hsel, hwe, haddr, hdata⟩ := h
  refine hdata.imp_left fun hw => ?_
  cases c
  cases d
  simp_all

/-- A cycle that names KEY or DIN writes none of the registers whose data acts on control. -/
theorem not_writes_of_operand (h : c.addr = 3#3 ∨ c.addr = 4#3) : ¬ Writes c 0#3 ∧ ¬ Writes c 1#3 ∧ ¬ Writes c 2#3 := by
  rcases h with h | h <;> simp [Writes, h]

/-- The access of a cycle keeps two states the same in control. -/
theorem sameControl_portEffect (h : SameControl s t) (hcd : SameButOperands c d) :
    SameControl (portEffect c s) (portEffect d t) := by
  obtain ⟨hie, hb, hd, hec, heb, hr, hopc, hrsel, hins⟩ := h
  rw [portEffect_eq c s, portEffect_eq d t]
  rcases eq_or_operand_of_sameButOperands hcd with rfl | ha
  · simp only [SameControl, Accepts, hie, hb, hd, hec, heb, hr, hopc, hrsel, hins, and_self]
  · obtain ⟨-, hsel, hwe, haddr, -⟩ := hcd
    obtain ⟨hctrl, hstatus, hcmd⟩ := not_writes_of_operand ha
    have hwrites : ∀ i, Writes c i ↔ Writes d i := fun i => by simp only [Writes, hsel, hwe, haddr]
    rw [hwrites] at hctrl hstatus hcmd
    simp only [SameControl, Accepts, regIndex, hwrites, hctrl, hstatus, hcmd, hie, hb, hd, hec, heb, hr, hopc, hrsel, hins,
      false_and, and_false, if_false, and_self]

/-- Whether a core step goes on is a matter of the latches and RCNT alone (R35, U7). -/
theorem coreStep_next_iff (T : CipherTables) (hb : s.busy = true) : (∃ core, coreStep T s = .next core) ↔
    s.rcnt.toNat ≤ 4 ∧ OpcodeLegal s ∧ SelectLegal s ∧ (s.opc = Opcode.enc.toBits → s.rcnt ≠ 0#3) := by
  obtain ⟨hrcnt, hopcode, hselect, henc⟩ := stuckCoreStepsOfUnreachableLatches T s hb
  constructor
  · rintro ⟨core, hc⟩
    have hno : ∀ e, coreStep T s ≠ .fault e := fun e he => by cases hc.symm.trans he
    have h4 : s.rcnt.toNat ≤ 4 := Nat.le_of_not_lt fun h => hno _ (hrcnt h)
    have h7 : s.opc.toNat ≤ 7 := Nat.le_of_not_lt fun h => hno _ (hopcode h4 h)
    have hsel : SelectLegal s := not_not.1 fun h => hno _ (hselect h4 h7 h)
    refine ⟨h4, h7, hsel, fun he h0 => hno _ (henc h0 he ?_)⟩
    simpa [commandOf] using (selectLegal_iff he).1 hsel
  · rintro ⟨h4, h7, hsel, hround⟩
    obtain ⟨op, hof, hbits⟩ := exists_opcode_of_le h7
    rw [coreStep_of_opcode T hb h4 hof]
    refine coreStepOf_next T ((selectLegal_iff hbits).1 hsel) fun he => ⟨Nat.pos_of_ne_zero fun h0 => ?_, h4⟩
    exact hround (he ▸ hbits) (BitVec.eq_of_toNat_eq h0)

/-- A core step that goes on, in closed form but for DOUT and ST: rounds 1 to 3 of ENC count RCNT up, and every other one completes the
command. -/
theorem coreStep_next_eq (h : coreStep T s = .next core) (hb : s.busy = true) :
    let more := s.opc = Opcode.enc.toBits ∧ s.rcnt.toNat ≤ 3
    core = { s with
      busy := decide more, done := s.done || !decide more, rcnt := if more then s.rcnt + 1#3 else 0#3
      dout := core.dout, st := core.st } := by
  rcases coreStep_next_cases h with ⟨hf, -⟩ | ⟨-, hne, out, rfl⟩ | ⟨-, he, n, hn, hle, rfl⟩ | ⟨-, he, hn, rfl⟩
  · exact absurd (hf.symm.trans hb) Bool.false_ne_true
  · simp [complete, hne]
  · have hnum := toNat_of_roundIndex_ofBits hn
    have hnext : BitVec.ofNat 3 (roundNumber n + 1) = s.rcnt + 1#3 := by
      rw [← hnum, BitVec.ofNat_add, BitVec.ofNat_toNat, BitVec.setWidth_eq]
    simp [encRound, he, hb, hnext, hnum, hle]
  · have hnum := toNat_of_roundIndex_ofBits hn
    simp [encFinal, he, hnum, roundNumber]

/-- A core step keeps two states the same in control, whatever the tables, and goes on from both or from neither. -/
theorem sameControl_coreStep (h : SameControl s t) (hb : s.busy = true) (hc : coreStep T s = .next core) :
    ∃ core', coreStep T' t = .next core' ∧ SameControl core core' := by
  obtain ⟨hie, hbusy, hd, hec, heb, hr, hopc, hrsel, hins⟩ := h
  have hb' : t.busy = true := hbusy.symm.trans hb
  obtain ⟨core', hc'⟩ : ∃ core', coreStep T' t = .next core' := by
    have hgo := (coreStep_next_iff T hb).1 ⟨core, hc⟩
    simp only [OpcodeLegal, SelectLegal, hr, hopc, hrsel] at hgo
    exact (coreStep_next_iff T' hb').2 hgo
  refine ⟨core', hc', ?_⟩
  rw [coreStep_next_eq hc hb, coreStep_next_eq hc' hb']
  simp only [SameControl, hie, hd, hec, heb, hr, hopc, hrsel, hins, and_self]

/-- A cycle keeps two states the same in control, whatever the tables. -/
theorem sameControl_stepWith {s' : State} (h : SameControl s t) (hs : stepWith T s = .next s') :
    ∃ t', stepWith T' t = .next t' ∧ SameControl s' t' := by
  have hcycle := sameButOperands_nextCycle h
  have htail := sameButOperands_inputs_tail h
  have haccess := sameControl_portEffect (sameControl_openCycle h) hcycle
  obtain ⟨hrst, -⟩ := hcycle
  obtain ⟨-, hbusy, -⟩ := h
  cases hr : (nextCycle s).rst with
  | true =>
    rw [stepWith_reset T hr] at hs
    cases hs
    exact ⟨_, stepWith_reset T' (hrst.symm.trans hr), rfl, rfl, rfl, rfl, rfl, rfl, rfl, rfl, htail⟩
  | false =>
    have hr' := hrst.symm.trans hr
    cases hb : s.busy with
    | false =>
      rw [stepWith_idle T hr hb] at hs
      cases hs
      exact ⟨_, stepWith_idle T' hr' (hbusy.symm.trans hb), haccess⟩
    | true =>
      rw [stepWith_eq_coreStep_portEffect T hr hb] at hs
      rw [stepWith_eq_coreStep_portEffect T' hr' (hbusy.symm.trans hb)]
      exact sameControl_coreStep haccess ((portEffect_busy_iff _ (openCycle s)).2 (.inl hb)) hs

end

/-- Settles O47: irq is a function of control. -/
theorem controlIsIndependentOfData : Obligations.ControlIsIndependentOfData := by
  intro T T' s t s' h hs
  obtain ⟨t', ht, h'⟩ := sameControl_stepWith (T' := T') h hs
  exact ⟨t', ht, h', irq_of_sameControl h'⟩

end Sys2Proof.Proofs
end

section
/-!
PROOFS of the statements about the datapath (R100 to R118): round keys as windows of the key, key mixing, the two layers and their
inverses for every pair of tables, and Encrypt as their composition.
-/
open Sys2Proof.Machine Sys2Proof.Laws

namespace Sys2Proof.Proofs

/-! ### Round keys and key mixing -/

/-- The upper half of a word shifted left by at most 16 is a window of the word. -/
theorem extractLsb'_shiftLeft_upper (k : Word) {n : Nat} (h : n ≤ 16) :
    (k <<< n).extractLsb' 16 16 = k.extractLsb' (16 - n) 16 := by
  refine BitVec.eq_of_getLsbD_eq fun i hi => ?_
  have hlt : 16 + i < 32 := by omega
  have hge : ¬ 16 + i < n := by omega
  have hidx : 16 + i - n = 16 - n + i := by omega
  simp only [BitVec.getLsbD_extractLsb', BitVec.getLsbD_shiftLeft, hi, hlt, hge, hidx, decide_true, decide_false,
    Bool.not_false, Bool.true_and]

theorem roundNumber_bounds (r : RoundIndex) : 1 ≤ roundNumber r ∧ roundNumber r ≤ 5 := by
  cases r <;> decide

/-- Round key r is the window of K from bit 20 - 4r up (R100). -/
theorem roundKey_eq_window (k : Word) (r : RoundIndex) : roundKey k r = k.extractLsb' (20 - 4 * roundNumber r) 16 := by
  obtain ⟨h1, h5⟩ := roundNumber_bounds r
  rw [roundKey, extractLsb'_shiftLeft_upper k (by omega)]
  congr 1
  omega

/-- Settles O48: the shift brings the window to the upper half. -/
theorem roundKeyIsAKeyWindow : Obligations.RoundKeyIsAKeyWindow := fun k r =>
  ⟨rfl, roundKey_eq_window k r, roundKey_eq_window k .one, roundKey_eq_window k .five⟩

/-- Settles O49: the windows of adjacent round keys are 4 bits apart. -/
theorem adjacentRoundKeysShareTwelveBits : Obligations.AdjacentRoundKeysShareTwelveBits := by
  intro k r r' h
  obtain ⟨-, h5⟩ := roundNumber_bounds r'
  rw [roundKey_eq_window, roundKey_eq_window]
  refine BitVec.eq_of_getLsbD_eq fun i hi => ?_
  have hidx : 20 - 4 * roundNumber r + i = 20 - 4 * roundNumber r' + (4 + i) := by omega
  have hlt : 4 + i < 16 := by omega
  simp [hi, hlt, hidx, show i < 16 by omega]

@[simp] theorem keyMix_zero (s : Block) (r : RoundIndex) : keyMix s 0#32 r = s := by
  simp [keyMix, roundKey]

/-- Mixing twice with one round key cancels it (R102). -/
@[simp] theorem keyMix_keyMix (s : Block) (k : Word) (r : RoundIndex) : keyMix (keyMix s k r) k r = s := by
  simp [keyMix]

/-- Settles O50: XOR with the same round key cancels, and key 0 has round key 0. -/
theorem keyMixIsAnInvolution : Obligations.KeyMixIsAnInvolution := fun s k r =>
  ⟨rfl, keyMix_zero s r, keyMix_keyMix s k r⟩

/-! ### Substitution -/

/-- The four lanes of Substitute (R104). -/
theorem nibbles_substitute (T : CipherTables) (w : Block) :
    nibble1 (substitute T w) = sboxNibble T (nibble1 w) ∧ nibble2 (substitute T w) = sboxNibble T (nibble2 w) ∧
      nibble3 (substitute T w) = sboxNibble T (nibble3 w) ∧ nibble4 (substitute T w) = sboxNibble T (nibble4 w) :=
  nibbles_ofNibbles _ _ _ _

/-- The four lanes of InvSubstitute (R106). -/
theorem nibbles_invSubstitute (T : CipherTables) (w : Block) :
    nibble1 (invSubstitute T w) = invSboxNibble T (nibble1 w) ∧ nibble2 (invSubstitute T w) = invSboxNibble T (nibble2 w) ∧
      nibble3 (invSubstitute T w) = invSboxNibble T (nibble3 w) ∧ nibble4 (invSubstitute T w) = invSboxNibble T (nibble4 w) :=
  nibbles_ofNibbles _ _ _ _

/-- Settles O51: the nibbles of a word of four nibbles are those nibbles. -/
theorem substituteWorksOnEachLaneAlone : Obligations.SubstituteWorksOnEachLaneAlone := by
  intro T w
  obtain ⟨h1, h2, h3, h4⟩ := nibbles_substitute T w
  obtain ⟨h1', h2', h3', h4'⟩ := nibbles_invSubstitute T w
  rw [h1, h2, h3, h4, h1', h2', h3', h4']
  exact ⟨rfl, rfl, rfl, rfl, rfl, rfl, rfl, rfl⟩

theorem invSubstitute_substitute (T : CipherTables) (w : Block) : invSubstitute T (substitute T w) = w := by
  obtain ⟨h1, h2, h3, h4⟩ := nibbles_substitute T w
  rw [invSubstitute, h1, h2, h3, h4]
  simp only [invSboxNibble_sboxNibble, ofNibbles_nibbles]

theorem substitute_invSubstitute (T : CipherTables) (w : Block) : substitute T (invSubstitute T w) = w := by
  obtain ⟨h1, h2, h3, h4⟩ := nibbles_invSubstitute T w
  rw [substitute, h1, h2, h3, h4]
  simp only [sboxNibble_invSboxNibble, ofNibbles_nibbles]

/-! ### Permutation -/

theorem invPermute_permute (T : CipherTables) (w : Block) : invPermute T (permute T w) = w :=
  block_ext fun p => by simp

theorem permute_invPermute (T : CipherTables) (w : Block) : permute T (invPermute T w) = w :=
  block_ext fun p => by simp

/-- Settles O52, in MSB positions. -/
theorem permuteMovesEachBitByTheTable : Obligations.PermuteMovesEachBitByTheTable := by
  intro T w p
  simp only [getLsbD_msb, msbBit_permute, msbBit_invPermute, Equiv.symm_apply_apply, and_self]

/-- A word with the same bit at every position is fixed. -/
theorem permute_of_const (T : CipherTables) {w : Block} {b : Bool} (h : ∀ p, msbBit w p = b) : permute T w = w :=
  block_ext fun p => by rw [msbBit_permute, h, h]

/-- Settles O53: the table is a bijection between the positions of 1 bits before and after. -/
theorem permuteKeepsTheNumberOfOnes : Obligations.PermuteKeepsTheNumberOfOnes := by
  intro T w
  refine ⟨Finset.card_equiv T.pbox.symm fun p => ?_, permute_of_const T (b := false) ?_, permute_of_const T (b := true) ?_⟩
  · simp only [Finset.mem_filter, Finset.mem_univ, true_and, msbBit_permute]
  · decide
  · decide

/-- Settles O54, layer by layer. -/
theorem inverseLayersUndoTheLayers : Obligations.InverseLayersUndoTheLayers := fun T w =>
  ⟨invSubstitute_substitute T w, substitute_invSubstitute T w, invPermute_permute T w, permute_invPermute T w⟩

/-- With a table that is its own inverse both directions are one. -/
theorem invPermute_eq_permute {T : CipherTables} (h : T.pbox.symm = T.pbox) (w : Block) : invPermute T w = permute T w := by
  rw [invPermute, permute, h]

theorem defaultTables_pbox_symm : Config.defaultTables.pbox.symm = Config.defaultTables.pbox :=
  Equiv.ext fun _ => rfl

/-- Settles O57: the default table is listed with itself as its inverse. -/
theorem defaultPermutationIsAnInvolution : Obligations.DefaultPermutationIsAnInvolution := by
  have hself := invPermute_eq_permute defaultTables_pbox_symm
  refine ⟨fun w => ⟨?_, hself w⟩, by decide⟩
  rw [← hself (permute _ w), invPermute_permute]

/-! ### Encrypt -/

/-- Settles O55: every key mixing is the identity. -/
theorem encryptUnderKeyZero : Obligations.EncryptUnderKeyZero := by
  intro T x
  simp only [encrypt, cipherRound, finalRound, keyMix_zero]

theorem keyMix_bijective (k : Word) (r : RoundIndex) : Function.Bijective fun x => keyMix x k r :=
  Function.Involutive.bijective fun s => keyMix_keyMix s k r

theorem substitute_bijective (T : CipherTables) : Function.Bijective (substitute T) :=
  Function.bijective_iff_has_inverse.2 ⟨invSubstitute T, invSubstitute_substitute T, substitute_invSubstitute T⟩

theorem permute_bijective (T : CipherTables) : Function.Bijective (permute T) :=
  Function.bijective_iff_has_inverse.2 ⟨invPermute T, invPermute_permute T, permute_invPermute T⟩

theorem cipherRound_bijective (T : CipherTables) (k : Word) (r : RoundIndex) :
    Function.Bijective fun s => cipherRound T s k r :=
  (permute_bijective T).comp ((substitute_bijective T).comp (keyMix_bijective k r))

theorem finalRound_bijective (T : CipherTables) (k : Word) : Function.Bijective fun s => finalRound T s k :=
  (keyMix_bijective k .five).comp ((substitute_bijective T).comp (keyMix_bijective k .four))

theorem encrypt_bijective (T : CipherTables) (k : Word) : Function.Bijective (encrypt T k) :=
  (finalRound_bijective T k).comp ((cipherRound_bijective T k .three).comp
    ((cipherRound_bijective T k .two).comp (cipherRound_bijective T k .one)))

/-- Settles O56: a composition of bijective rounds, themselves compositions of bijective layers. -/
theorem encryptIsABijection : Obligations.EncryptIsABijection := fun T k =>
  ⟨encrypt_bijective T k, keyMix_bijective k, substitute_bijective T, permute_bijective T⟩

end Sys2Proof.Proofs
end

section
/-!
PROOFS of the statements about commands: the write of a command word, the core step that completes a single-layer command, and the end
of a command in progress after the core steps it has left. Which command a core step completes is read off the latches by opcode.
-/
open Sys2Proof.Machine Sys2Proof.Laws

namespace Sys2Proof.Proofs

/-! ### The write of a command word -/

/-- Accepting a word with ENC's opcode starts at round 1 from DIN (R121). -/
theorem accept_of_enc {v : Word} (h : opField v = Opcode.enc.toBits) (s : State) : accept v s = { s with
    done := false, busy := true, opc := opField v, rsel := rndField v, st := s.din, rcnt := 1#3 } := by
  rw [accept, if_pos h, if_pos h]

/-- Accepting a word with any other opcode keeps ST and is at no round (R121). -/
theorem accept_of_ne_enc {v : Word} (h : opField v ≠ Opcode.enc.toBits) (s : State) : accept v s = { s with
    done := false, busy := true, opc := opField v, rsel := rndField v, rcnt := 0#3 } := by
  rw [accept, if_neg h, if_neg h]

/-- Settles O16: the checks of Command(v) in their order, then what its opcode makes of the acceptance. -/
theorem cmdWriteChecksBusyThenLegality : Obligations.CmdWriteChecksBusyThenLegality := by
  intro v s
  rw [exec_write_cmd]
  refine ⟨fun hb => ?busy, fun hb hl => ?illegal, fun hb hl he => ?enc, fun hb hl hne => ?other⟩
  case busy => rw [command_busy v hb]
  case illegal => rw [command_illegal hb hl]
  case enc =>
    rw [command_legal hb hl, accept_of_enc he]
    rfl
  case other =>
    rw [command_legal hb hl, accept_of_ne_enc hne]
    rfl

/-- Settles O17: every mnemonic is the write of its word, and a busy core turns any word away. -/
theorem busyCommandOnlySetsErrBusy : Obligations.BusyCommandOnlySetsErrBusy := by
  intro i v s hw hb
  rw [exec_of_commandWord hw, command_busy v hb]

/-- Settles O18, as a single-layer command whose result is the DOUT it finds. -/
theorem nopCompletesWithDoutUnchanged : Obligations.NopCompletesWithDoutUnchanged := fun _ _ hb =>
  singleLayer_accepted_completes (op := .nop) (by decide) rfl rfl hb

/-! ### The completing core step of a single-layer command -/

/-- The instruction an opcode names, with its RND field where it takes one, whether or not the field is legal. -/
def instrOf : Opcode → BitVec 3 → Instr
  | .nop, _ => .nop
  | .enc, _ => .enc
  | .rkey, r => .rkey r
  | .kxor, r => .kxor r
  | .sub, _ => .sub
  | .isub, _ => .isub
  | .perm, _ => .perm
  | .iperm, _ => .iperm

/-- Where an opcode and an RND field make a command, it is the instruction the opcode names. -/
theorem eq_instrOf_of_commandOf {op : Opcode} {r : BitVec 3} {i : Instr} (h : commandOf op r = some i) : i = instrOf op r := by
  cases op
  all_goals
    obtain ⟨-, hi⟩ := Option.ite_none_right_eq_some.1 h
    exact (Option.some_inj.1 hi).symm

/-- With the invariants and a command other than ENC in progress, the core step completes it with the result of the command that the
latches hold (R123). -/
theorem coreStep_complete_of_inv (T : CipherTables) {s : State} {op : Opcode} (hs : StateInv s) (hb : s.busy = true)
    (hop : s.opc = op.toBits) (hne : op ≠ .enc) :
    ∃ out, commandResult T (instrOf op s.rsel) s = some out ∧ coreStep T s = .next (complete out s) := by
  obtain ⟨-, -, hplain, -, hsel⟩ := hs
  obtain ⟨i, hc⟩ := Option.isSome_iff_exists.1 ((selectLegal_iff hop).1 hsel)
  obtain ⟨out, hout⟩ := exists_commandResult hc T s
  have hrcnt : s.rcnt = 0#3 := hplain hb (hop ▸ toBits_injective.ne hne)
  refine ⟨out, eq_instrOf_of_commandOf hc ▸ hout, ?_⟩
  rw [coreStep_of_opcode T hb (by simp [hrcnt]) (hop ▸ ofBits_toBits op), coreStepOf_single hne hc hout]

/-- Settles O28: the invariants give OPC an opcode, and the result is that opcode's function. -/
theorem coreStepCompletesSingleLayerCommand : Obligations.CoreStepCompletesSingleLayerCommand := by
  intro T s hs hb hne
  obtain ⟨op, hop, -⟩ := (stateInv_iff s).1 hs
  obtain ⟨out, hout, hstep⟩ := coreStep_complete_of_inv T hs hb hop fun he => hne (hop.trans (congrArg _ he))
  have hresult : ∀ (op' : Opcode) {y : Block}, s.opc = op'.toBits → commandResult T (instrOf op' s.rsel) s = some y →
      out = y := by
    intro op' y hop' hy
    obtain rfl : op = op' := toBits_injective (hop.symm.trans hop')
    exact Option.some_inj.1 (hout.symm.trans hy)
  exact ⟨out, hstep, fun h => hresult .nop h rfl,
    fun h n hn => hresult .rkey h (congrArg (Option.map _) (roundIndex_ofBits_of_toNat hn)),
    fun h n hn => hresult .kxor h (congrArg (Option.map _) (roundIndex_ofBits_of_toNat hn)),
    fun h => hresult .sub h rfl, fun h => hresult .isub h rfl, fun h => hresult .perm h rfl, fun h => hresult .iperm h rfl⟩

/-! ### The end of a command in progress -/

/-- With no reset in the coming `n + 1` cycles there is none in the next one, nor in the `n` after it. -/
theorem noReset_take_succ {s : State} {n : Nat} (h : NoReset (s.inputs.take (n + 1))) :
    (nextCycle s).rst = false ∧ NoReset (s.inputs.tail.take n) := by
  unfold nextCycle
  cases hins : s.inputs with
  | nil => exact ⟨rfl, by simp [NoReset]⟩
  | cons c cs => exact List.forall_mem_cons.1 (hins ▸ h)

/-- With the invariants, BUSY says whether a core step is left. -/
theorem busy_iff_stepsLeft_pos {s : State} (hs : StateInv s) : s.busy = true ↔ 0 < stepsLeft s := by
  refine ⟨stepsLeft_pos hs, fun h => ?_⟩
  by_contra hb
  exact h.ne' (stepsLeft_idle (Bool.eq_false_iff.2 hb))

/-- A run of as many cycles as core steps are left, by induction on these: each cycle takes one, and the one that takes the last sets
DONE, so a state without any left is idle with DONE set. -/
theorem runWith_stepsLeft (T : CipherTables) {k : Nat} {s : State} (hs : StateInv s) (hdone : s.busy = false → s.done = true)
    (hk : stepsLeft s = k) (hr : NoReset (s.inputs.take k)) :
    (∀ n, n < k → ∃ u, runWith T n s = .next u ∧ u.busy = true) ∧
      ∃ u, runWith T k s = .next u ∧ u.busy = false ∧ u.done = true ∧ u.rcnt = 0#3 := by
  induction k generalizing s with
  | zero =>
    have hb : s.busy = false := by
      rw [← Bool.not_eq_true, busy_iff_stepsLeft_pos hs]
      omega
    obtain ⟨hidle, -⟩ := hs
    exact ⟨fun n hn => absurd hn n.not_lt_zero, s, rfl, hb, hdone hb, hidle hb⟩
  | succ k ih =>
    have hb : s.busy = true := (busy_iff_stepsLeft_pos hs).2 (by omega)
    obtain ⟨hrst, htail⟩ := noReset_take_succ hr
    obtain ⟨t, ht⟩ := stepWith_next_of_inv T hs
    have hleft : stepsLeft t = k := by
      have := stepsLeft_of_cycle ht hrst hb
      omega
    have htdone : t.busy = false → t.done = true := fun htb =>
      (doneIsSetByCompletionAndTheSetWins T s t ht hrst).2 (.inl ⟨hb, htb⟩)
    obtain ⟨-, hins⟩ := stepWith_port ht hrst
    obtain ⟨hbusy, hended⟩ := ih (stepWith_keeps_inv hs ht) htdone hleft (hins ▸ htail)
    rw [runWith_succ T k ht]
    refine ⟨fun n hn => ?_, hended⟩
    cases n with
    | zero => exact ⟨s, rfl, hb⟩
    | succ n =>
      rw [runWith_succ T n ht]
      exact hbusy n (by omega)

/-- Settles O30: the run of the steps left from a busy state. -/
theorem commandEndsAfterItsStepsLeft : Obligations.CommandEndsAfterItsStepsLeft := fun T _ hs hb hr =>
  runWith_stepsLeft T hs (fun hf => absurd (hf.symm.trans hb) Bool.false_ne_true) rfl hr

end Sys2Proof.Proofs
end

section
/-!
PROOFS of the statements about ENC (42_encrypt.md): its core step in each round, and the four edges from its acceptance to
Encrypt(KEY, DIN). What holds while ENC is in progress is said once, for every round; an edge takes it to the next round or, from
round 4, to the result.
-/
open Sys2Proof.Machine Sys2Proof.Laws

namespace Sys2Proof.Proofs

/-! ### The core step of ENC -/

section
variable {T : CipherTables} {s : State}

/-- With the invariants RSEL is 0 while OPC holds ENC (R35). -/
theorem rsel_eq_zero_of_enc (hs : StateInv s) (hop : s.opc = Opcode.enc.toBits) : s.rsel = 0#3 := by
  obtain ⟨-, -, -, -, hsel⟩ := hs
  simpa [commandOf] using (selectLegal_iff hop).1 hsel

/-- The round number that a round step writes is RCNT counted up by one (R141). -/
theorem encRound_eq_of_toNat {n : RoundIndex} (hn : s.rcnt.toNat = roundNumber n) :
    encRound T n s = { s with st := cipherRound T s.st s.key n, rcnt := s.rcnt + 1#3 } := by
  rw [encRound, ← hn, BitVec.ofNat_add, BitVec.ofNat_toNat, BitVec.setWidth_eq]

end

/-- Settles O29: the invariants give RSEL = 0, and RCNT then chooses the round step or the final one. -/
theorem coreStepOfEncIsOneRound : Obligations.CoreStepOfEncIsOneRound := by
  intro T s n hs hb hop hn
  obtain ⟨hround, hfinal⟩ :=
    coreStep_enc (T := T) hb hop (rsel_eq_zero_of_enc hs hop) (roundIndex_ofBits_of_toNat hn)
  exact ⟨fun hle => (hround hle).trans (congrArg _ (encRound_eq_of_toNat hn)), hfinal⟩

/-! ### The edges of an ENC in progress -/

/-- In `t` the ENC accepted in `s` is at round `r` with `x` in ST: its operands, DOUT and the latches are as its acceptance left them,
and the host has the cycles `ins` still to present. -/
structure EncAtRound (s : State) (r : RoundIndex) (x : Block) (ins : List PortCycle) (t : State) : Prop where
  busy : t.busy = true
  rcnt : t.rcnt = BitVec.ofNat 3 (roundNumber r)
  st : t.st = x
  dout : t.dout = s.dout
  key : t.key = s.key
  din : t.din = s.din
  opc : t.opc = Opcode.enc.toBits
  rsel : t.rsel = 0#3
  inputs : t.inputs = ins

theorem roundIndex_ofBits_ofNat (r : RoundIndex) : RoundIndex.ofBits (BitVec.ofNat 3 (roundNumber r)) = some r := by
  cases r <;> rfl

/-- The write of ENC while idle is its acceptance (R121, R140). -/
theorem exec_enc_of_idle {s : State} (hb : s.busy = false) :
    exec .enc s = .next { accepted s 0x1#4 0#3 with st := s.din, rcnt := 1#3 } := by
  rw [exec_of_commandWord (v := cmdword .enc 0) rfl, command_legal hb (by decide), accept_of_enc (opField_cmdword .enc 0)]
  rfl

/-- Acceptance starts ENC at round 1 with DIN in ST. -/
theorem encAtRound_one_of_accepted (s : State) (ins : List PortCycle) :
    EncAtRound s .one s.din ins { accepted s 0x1#4 0#3 with st := s.din, rcnt := 1#3, inputs := ins } :=
  ⟨rfl, rfl, rfl, rfl, rfl, rfl, rfl, rfl, rfl⟩

section
variable {T : CipherTables} {s t : State} {r r' : RoundIndex} {x : Block} {c : PortCycle} {ins : List PortCycle}

theorem EncAtRound.nextCycle_eq (h : EncAtRound s r x (c :: ins) t) : nextCycle t = c := by
  rw [nextCycle, h.inputs, List.headD_cons]

theorem EncAtRound.inputs_tail (h : EncAtRound s r x (c :: ins) t) : t.inputs.tail = ins := by
  rw [h.inputs, List.tail_cons]

theorem EncAtRound.coreStep (h : EncAtRound s r x ins t) :
    (roundNumber r ≤ 3 → coreStep T t = .next (encRound T r t)) ∧
      (roundNumber r = 4 → coreStep T t = .next (encFinal T t)) :=
  coreStep_enc h.busy h.opc h.rsel (h.rcnt ▸ roundIndex_ofBits_ofNat r)

/-- An edge in a round before the last does that round and goes on to the next, whatever its access (R141, R177). -/
theorem EncAtRound.edge (h : EncAtRound s r x (c :: ins) t) (hc : c.rst = false) (hle : roundNumber r ≤ 3)
    (hnext : roundNumber r' = roundNumber r + 1) :
    ∃ u, stepWith T t = .next u ∧ EncAtRound s r' (cipherRound T x s.key r) ins u := by
  obtain ⟨ie, d, ec, eb, rd, hstep, -⟩ :=
    stepWith_busy_next T (by rw [h.nextCycle_eq, hc]) h.busy (h.coreStep.1 hle)
  refine ⟨_, hstep, h.busy, ?rcnt, ?st, h.dout, h.key, h.din, h.opc, h.rsel, h.inputs_tail⟩
  case rcnt => rw [encRound_rcnt, hnext]
  case st => rw [encRound_st, h.st, h.key]

/-- The edge in round 4 completes ENC with the final round's result, whatever its access (R143, R177). -/
theorem EncAtRound.last_edge (h : EncAtRound s .four x (c :: ins) t) (hc : c.rst = false) :
    ∃ u, stepWith T t = .next u ∧
      u.dout = finalRound T x s.key ∧ u.st = finalRound T x s.key ∧ u.busy = false ∧ u.done = true ∧ u.rcnt = 0#3 ∧
      u.key = s.key ∧ u.din = s.din ∧ u.opc = Opcode.enc.toBits ∧ u.rsel = 0#3 ∧ u.inputs = ins := by
  obtain ⟨ie, d, ec, eb, rd, hstep, hdone⟩ :=
    stepWith_busy_next T (by rw [h.nextCycle_eq, hc]) h.busy (h.coreStep.2 rfl)
  have hresult : finalRound T t.st t.key = finalRound T x s.key := by rw [h.st, h.key]
  exact ⟨_, hstep, hresult, hresult, rfl, hdone rfl, rfl, h.key, h.din, h.opc, h.rsel, h.inputs_tail⟩

end

/-- A run of n cycles and one more cycle from where it ends are a run of n + 1 cycles. -/
theorem runWith_snoc {T : CipherTables} {n : Nat} {s t u : State} (hrun : runWith T n s = .next t)
    (hstep : stepWith T t = .next u) : runWith T (n + 1) s = .next u := by
  induction n generalizing s with
  | zero =>
    cases hrun
    exact runWith_succ T 0 hstep
  | succ n ih =>
    cases hs : stepWith T s with
    | next s' =>
      rw [runWith_succ T n hs] at hrun
      exact (runWith_succ T (n + 1) hs).trans (ih hrun)
    | fault e => rw [runWith, hs] at hrun; cases hrun
    | refused e => rw [runWith, hs] at hrun; cases hrun

/-- Settles O26: acceptance is round 1 with DIN in ST, three edges do rounds 1 to 3 of R111, and the fourth does the final round. -/
theorem encEncryptsInFourEdges : Obligations.EncEncryptsInFourEdges := by
  intro T s hb
  refine ⟨exec_enc_of_idle hb, fun cs rest hlen hreset => ?_⟩
  obtain ⟨c₁, c₂, c₃, c₄, rfl⟩ := List.length_eq_four.1 hlen
  simp only [NoReset, List.forall_mem_cons] at hreset
  obtain ⟨hc₁, hc₂, hc₃, hc₄, -⟩ := hreset
  have h₁ := encAtRound_one_of_accepted s ([c₁, c₂, c₃, c₄] ++ rest)
  obtain ⟨t₂, hstep₁, h₂⟩ := h₁.edge (T := T) (r' := .two) hc₁ (by decide) rfl
  obtain ⟨t₃, hstep₂, h₃⟩ := h₂.edge (T := T) (r' := .three) hc₂ (by decide) rfl
  obtain ⟨t₄, hstep₃, h₄⟩ := h₃.edge (T := T) (r' := .four) hc₃ (by decide) rfl
  obtain ⟨u, hstep₄, hended⟩ := h₄.last_edge (T := T) hc₄
  have hrun₁ := runWith_succ T 0 hstep₁
  have hrun₂ := runWith_snoc hrun₁ hstep₂
  have hrun₃ := runWith_snoc hrun₂ hstep₃
  refine ⟨fun n hn => ?_, u, runWith_snoc hrun₃ hstep₄, hended⟩
  match n, hn with
  | 0, _ => exact ⟨_, rfl, h₁.busy, h₁.rcnt, h₁.dout, h₁.key, h₁.din⟩
  | 1, _ => exact ⟨t₂, hrun₁, h₂.busy, h₂.rcnt, h₂.dout, h₂.key, h₂.din⟩
  | 2, _ => exact ⟨t₃, hrun₂, h₃.busy, h₃.rcnt, h₃.dout, h₃.key, h₃.din⟩
  | 3, _ => exact ⟨t₄, hrun₃, h₄.busy, h₄.rcnt, h₄.dout, h₄.key, h₄.din⟩

end Sys2Proof.Proofs
end

section
/-!
PROOFS of the statement about a reset edge (70_reset_and_hazards.md, R170, R171): the cycle is the reset event whatever else it holds,
and with IE cleared no status bit reaches irq.
-/
open Sys2Proof.Machine Sys2Proof.Laws

namespace Sys2Proof.Proofs

/-- R156: with IE clear, no status bit raises irq. -/
theorem irq_eq_false_of_ie {s : State} (h : s.ie = false) : irq s = false := by
  rw [irq, h, Bool.false_and]

/-- Settles O2: the coming cycle is `c`, so the step is the reset event, of which neither the access nor the core step is a part. -/
theorem resetEdgeTakesPrecedence : Obligations.ResetEdgeTakesPrecedence := by
  intro T s c rest hrst
  have hnext : (nextCycle { s with inputs := c :: rest }).rst = true := hrst
  exact ⟨{ State.reset with inputs := rest }, stepWith_reset T hnext, irq_eq_false_of_ie rfl, rfl⟩

end Sys2Proof.Proofs
end
